-- ==== Sys2Proof/Word.lean ====
section
/-!
DEFINITION. The word types of the core (spec 00_scope.md rules R7, R9, R10).
-/

namespace Sys2Proof

/-- A byte, bits 7 down to 0 (R9): a heap cell or one byte of a binary group. -/
abbrev Byte := BitVec 8

/-- The 32 bits of a register; `toInt` is the signed value the register holds, `toNat` the
unsigned reading `u32` (R10). -/
abbrev Word := BitVec 32

/-- An operand slot: "a signed 32-bit integer" (10_state.md rule R34); its value is `toInt`. -/
abbrev Slot := BitVec 32

end Sys2Proof
end

