-- ==== Sys2Proof/Config.lean ====
section
/-!
DEFINITION. The two parameters the spec leaves open (00_scope.md rule R8; 92_eei_decisions.md D19).
-/

namespace Sys2Proof

/-- The capacities of one machine, which "the model takes as an argument" (R8): fixed for the
machine, carried by the state so that every claim holds for every choice of them (log 6). -/
structure Config where
  /-- PROGRAM_MAX, the greatest number of instructions the program store holds;
  "PROGRAM_MAX <= 2^31 - 1" (R8) is the bound of the type. -/
  programMax : Fin 2147483648
  /-- HEAP_MAX, the greatest heap length in bytes; `none` is "no bound" (R8). -/
  heapMax : Option Nat
deriving DecidableEq, Repr

/-- DESIGN CHOICE (log 6, unsafe): the greatest program store R8 allows; the heap bound is the
default R8 names, "the default being no bound". -/
def Config.default : Config where
  programMax := 2147483647
  heapMax := none

end Sys2Proof
end

