-- ==== Sys2Proof/Syntax.lean ====
section
/-!
DEFINITION. The 19 operations, one constructor per row of spec/opcode_table.json (30_encoding.md
rules R70 and R76). Each carries all three operand slots of the Instruction (10_state.md rule R34),
named by the operand roles of R76; a slot the operation does not use is named by its letter. The
sentinel ILLEGAL has no row and no constructor here: it is an opcode of `Instruction` (Decode.lean).
-/

namespace Sys2Proof

/-- An instruction with one of the 19 operations of the opcode table. -/
inductive Instr
  | hlt (a b c : Slot)
  | load (rd imm c : Slot)
  | add (ra rb rd : Slot)
  | sub (ra rb rd : Slot)
  | mul (ra rb rd : Slot)
  | div (ra rb rd : Slot)
  | jmp (ra b c : Slot)
  | jmpf (ra b c : Slot)
  | jmpb (ra b c : Slot)
  | eq (ra rb c : Slot)
  | neq (ra rb c : Slot)
  | gt (ra rb c : Slot)
  | lt (ra rb c : Slot)
  | gtq (ra rb c : Slot)
  | ltq (ra rb c : Slot)
  | jeq (ra b c : Slot)
  | aloc (ra b c : Slot)
  | inc (ra b c : Slot)
  | dec (ra b c : Slot)
deriving DecidableEq, Repr

end Sys2Proof
end

