-- ==== Sys2Proof/WellFormed.lean ====
section
/-!
DEFINITION. Which instructions have a binary encoding (30_encoding.md rule R83). An instruction that
has none is still an instruction: the textual decoder can build it and the engine runs it (R94).
-/

namespace Sys2Proof

/-- The slot value fits one operand byte: it is in 0..255 (R83). -/
def Slot.fitsByte (v : Slot) : Bool := decide (0 ≤ v.toInt ∧ v.toInt ≤ 255)

/-- The slot value fits LOAD's binary immediate: it is in 0..65535 (R83). -/
def Slot.fitsImm16 (v : Slot) : Bool := decide (0 ≤ v.toInt ∧ v.toInt ≤ 65535)

/-- Three slots that each fit an operand byte, "each in 0..255" (R83). -/
def Slot.fitBytes (a b c : Slot) : Bool := a.fitsByte && b.fitsByte && c.fitsByte

/-- The instruction has a binary encoding (R83): for LOAD "whose `I.a` is in 0..255, whose `I.b` is
in 0..65535 and whose `I.c` is 0", for every other operation "whose three slots are each in
0..255". -/
def Instr.wellFormed : Instr → Bool
  | .load rd imm c => rd.fitsByte && imm.fitsImm16 && (c == 0)
  | .hlt a b c => Slot.fitBytes a b c
  | .add ra rb rd => Slot.fitBytes ra rb rd
  | .sub ra rb rd => Slot.fitBytes ra rb rd
  | .mul ra rb rd => Slot.fitBytes ra rb rd
  | .div ra rb rd => Slot.fitBytes ra rb rd
  | .jmp ra b c => Slot.fitBytes ra b c
  | .jmpf ra b c => Slot.fitBytes ra b c
  | .jmpb ra b c => Slot.fitBytes ra b c
  | .eq ra rb c => Slot.fitBytes ra rb c
  | .neq ra rb c => Slot.fitBytes ra rb c
  | .gt ra rb c => Slot.fitBytes ra rb c
  | .lt ra rb c => Slot.fitBytes ra rb c
  | .gtq ra rb c => Slot.fitBytes ra rb c
  | .ltq ra rb c => Slot.fitBytes ra rb c
  | .jeq ra b c => Slot.fitBytes ra b c
  | .aloc ra b c => Slot.fitBytes ra b c
  | .inc ra b c => Slot.fitBytes ra b c
  | .dec ra b c => Slot.fitBytes ra b c

end Sys2Proof
end

