-- ==== Sys2Proof/Decode.lean ====
section
/-!
DEFINITION. The opcode table, the binary decoder, the textual decoder, and the encoder
(30_encoding.md rules R70 to R95; 10_state.md rule R34). Both decoders are total and give an
Instruction for every input; input that names no operation gives the sentinel ILLEGAL.
-/

namespace Sys2Proof

/-! ## Opcodes and Instructions -/

/-- "Closed set of 19 named operations ... plus one sentinel, `ILLEGAL`" (R70). -/
inductive Opcode
  | hlt | load | add | sub | mul | div | jmp | jmpf | jmpb
  | eq | neq | gt | lt | gtq | ltq | jeq | aloc | inc | dec
  | illegal
deriving DecidableEq, Repr

/-- An Instruction, "a value `{ opcode: Opcode, operands: [Operand; 3] }`" (R34): what both decoders
build and the program store holds. -/
structure Instruction where
  opcode : Opcode
  a : Slot
  b : Slot
  c : Slot
deriving DecidableEq, Repr

/-- The result of decoding a line that names no operation: `{ ILLEGAL, [0, 0, 0] }` (R91). -/
def Instruction.illegalZero : Instruction := ⟨.illegal, 0, 0, 0⟩

/-- The dispatch of a step on `I.op` (40_engine_step.md rule R112): one of the 19 operations, or
`none` for ILLEGAL. -/
def Instruction.instr? (I : Instruction) : Option Instr :=
  match I.opcode with
  | .hlt => some (.hlt I.a I.b I.c)
  | .load => some (.load I.a I.b I.c)
  | .add => some (.add I.a I.b I.c)
  | .sub => some (.sub I.a I.b I.c)
  | .mul => some (.mul I.a I.b I.c)
  | .div => some (.div I.a I.b I.c)
  | .jmp => some (.jmp I.a I.b I.c)
  | .jmpf => some (.jmpf I.a I.b I.c)
  | .jmpb => some (.jmpb I.a I.b I.c)
  | .eq => some (.eq I.a I.b I.c)
  | .neq => some (.neq I.a I.b I.c)
  | .gt => some (.gt I.a I.b I.c)
  | .lt => some (.lt I.a I.b I.c)
  | .gtq => some (.gtq I.a I.b I.c)
  | .ltq => some (.ltq I.a I.b I.c)
  | .jeq => some (.jeq I.a I.b I.c)
  | .aloc => some (.aloc I.a I.b I.c)
  | .inc => some (.inc I.a I.b I.c)
  | .dec => some (.dec I.a I.b I.c)
  | .illegal => none

/-- The Instruction that the program store holds for an instruction of the table. -/
def Instr.toInstruction : Instr → Instruction
  | .hlt a b c => ⟨.hlt, a, b, c⟩
  | .load rd imm c => ⟨.load, rd, imm, c⟩
  | .add ra rb rd => ⟨.add, ra, rb, rd⟩
  | .sub ra rb rd => ⟨.sub, ra, rb, rd⟩
  | .mul ra rb rd => ⟨.mul, ra, rb, rd⟩
  | .div ra rb rd => ⟨.div, ra, rb, rd⟩
  | .jmp ra b c => ⟨.jmp, ra, b, c⟩
  | .jmpf ra b c => ⟨.jmpf, ra, b, c⟩
  | .jmpb ra b c => ⟨.jmpb, ra, b, c⟩
  | .eq ra rb c => ⟨.eq, ra, rb, c⟩
  | .neq ra rb c => ⟨.neq, ra, rb, c⟩
  | .gt ra rb c => ⟨.gt, ra, rb, c⟩
  | .lt ra rb c => ⟨.lt, ra, rb, c⟩
  | .gtq ra rb c => ⟨.gtq, ra, rb, c⟩
  | .ltq ra rb c => ⟨.ltq, ra, rb, c⟩
  | .jeq ra b c => ⟨.jeq, ra, b, c⟩
  | .aloc ra b c => ⟨.aloc, ra, b, c⟩
  | .inc ra b c => ⟨.inc, ra, b, c⟩
  | .dec ra b c => ⟨.dec, ra, b, c⟩

/-! ## The opcode table and its three mappings (R70, R71) -/

/-- One row of the opcode table of R70. -/
structure OpcodeRow where
  code : Byte
  mnemonic : List Char
  op : Opcode
deriving DecidableEq, Repr

/-- The opcode table of R70, in the order of the codes. -/
def opcodeTable : List OpcodeRow :=
  [⟨0, ['H', 'L', 'T'], .hlt⟩,
   ⟨1, ['L', 'O', 'A', 'D'], .load⟩,
   ⟨2, ['A', 'D', 'D'], .add⟩,
   ⟨3, ['S', 'U', 'B'], .sub⟩,
   ⟨4, ['M', 'U', 'L'], .mul⟩,
   ⟨5, ['D', 'I', 'V'], .div⟩,
   ⟨6, ['J', 'M', 'P'], .jmp⟩,
   ⟨7, ['J', 'M', 'P', 'F'], .jmpf⟩,
   ⟨8, ['J', 'M', 'P', 'B'], .jmpb⟩,
   ⟨9, ['E', 'Q'], .eq⟩,
   ⟨10, ['N', 'E', 'Q'], .neq⟩,
   ⟨11, ['G', 'T'], .gt⟩,
   ⟨12, ['L', 'T'], .lt⟩,
   ⟨13, ['G', 'T', 'Q'], .gtq⟩,
   ⟨14, ['L', 'T', 'Q'], .ltq⟩,
   ⟨15, ['J', 'E', 'Q'], .jeq⟩,
   ⟨16, ['A', 'L', 'O', 'C'], .aloc⟩,
   ⟨17, ['I', 'N', 'C'], .inc⟩,
   ⟨18, ['D', 'E', 'C'], .dec⟩]

/-- `fromCode(byte) -> Opcode`, total: ILLEGAL for a byte that no row has (R71). -/
def Opcode.fromCode (code : Byte) : Opcode :=
  ((opcodeTable.find? fun r => r.code == code).map OpcodeRow.op).getD .illegal

/-- `fromMnemonic(string) -> Opcode`, total, exact and case-sensitive (R71, R88). -/
def Opcode.fromMnemonic (m : List Char) : Opcode :=
  ((opcodeTable.find? fun r => r.mnemonic == m).map OpcodeRow.op).getD .illegal

/-- `toCode(Opcode) -> byte`, "defined only for non-sentinel opcodes" (R71; 93 U2). -/
def Opcode.toCode? (op : Opcode) : Option Byte :=
  (opcodeTable.find? fun r => r.op == op).map OpcodeRow.code

/-- The mnemonic of an operation; ILLEGAL has none (R70). -/
def Opcode.mnemonic? (op : Opcode) : Option (List Char) :=
  (opcodeTable.find? fun r => r.op == op).map OpcodeRow.mnemonic

/-! ## The binary decoder (R72 to R80) -/

/-- A byte zero-extended into a slot (R74, R75). -/
def Slot.ofByte (b : Byte) : Slot := b.setWidth 32

/-- LOAD's immediate, "an unsigned 16-bit value assembled big-endian from two operand bytes" and
zero-extended into its slot (R77). -/
def Slot.ofImm16 (hi lo : Byte) : Slot := (hi ++ lo).setWidth 32

/-- One group of four bytes to an Instruction: R77 for LOAD, R75 for every other opcode byte. -/
def decodeGroup (b0 b1 b2 b3 : Byte) : Instruction :=
  match Opcode.fromCode b0 with
  | .load => ⟨.load, Slot.ofByte b1, Slot.ofImm16 b2 b3, 0⟩
  | op => ⟨op, Slot.ofByte b1, Slot.ofByte b2, Slot.ofByte b3⟩

/-- A whole binary program (R78, R79): groups of four bytes from offset 0, the missing bytes of a
short final group taken as 0. -/
def decodeBinary : List Byte → List Instruction
  | [] => []
  | [b0] => [decodeGroup b0 0 0 0]
  | [b0, b1] => [decodeGroup b0 b1 0 0]
  | [b0, b1, b2] => [decodeGroup b0 b1 b2 0]
  | b0 :: b1 :: b2 :: b3 :: rest => decodeGroup b0 b1 b2 b3 :: decodeBinary rest

/-- The bytes B0 to B3 of a group drawn as the word W, B0 = W[31:24] (R9, R73). -/
def bytesOfWord (w : Word) : List Byte :=
  [w.extractLsb' 24 8, w.extractLsb' 16 8, w.extractLsb' 8 8, w.extractLsb' 0 8]

/-- The word of `nbits` bits that spec/opcode_table.json draws, its bits above `nbits` taken as 0. -/
def tableWord (nbits w : Nat) : Word := BitVec.ofNat 32 (w % 2 ^ nbits)

/-- The Instruction the decoder reads from a word of the opcode table (log 8 says how the table's
bits are numbered): its four bytes in stream order, decoded as a stream of one group. -/
def instructionOfTableWord (nbits w : Nat) : Instruction :=
  (decodeBinary (bytesOfWord (tableWord nbits w))).headD Instruction.illegalZero

/-- The instruction the decoder reads from a word of the opcode table; `none` where it reads
ILLEGAL. -/
def decodeTableWord (nbits w : Nat) : Option Instr := (instructionOfTableWord nbits w).instr?

/-! ## The textual decoder (R84 to R92)

Text is a list of characters. Every character the decoder tests is ASCII, so the bytes of a UTF-8
text may be given to it one character a byte (`charsOfUtf8`, log 10). -/

/-- "Whitespace is any of U+0020 space, U+0009 tab, U+000A, U+000B, U+000C, U+000D" (R89). -/
def isSpace (ch : Char) : Bool :=
  ch.toNat == 0x20 || (0x09 ≤ ch.toNat && ch.toNat ≤ 0x0D)

/-- Puts a character at the front of the first run of a list of runs. -/
def consFirst (ch : Char) : List (List Char) → List (List Char)
  | [] => [[ch]]
  | run :: runs => (ch :: run) :: runs

/-- The text begins with a character that is not whitespace. -/
def startsRun : List Char → Bool
  | [] => false
  | ch :: _ => !isSpace ch

/-- "Tokens are the maximal runs of characters that are not whitespace" (R89). -/
def splitTokens : List Char → List (List Char)
  | [] => []
  | ch :: rest =>
    if isSpace ch then splitTokens rest
    else if startsRun rest then consFirst ch (splitTokens rest)
    else [ch] :: splitTokens rest

/-- "One of the ASCII characters `0` to `9`" (R84). -/
def isDigit (ch : Char) : Bool := decide (0x30 ≤ ch.toNat ∧ ch.toNat ≤ 0x39)

/-- `digits`: one or more ASCII digits "read as a decimal number; leading zeros are allowed and
change nothing" (R84). -/
def parseDigits (cs : List Char) : Option Nat :=
  if cs ≠ [] ∧ cs.all isDigit then
    some (cs.foldl (fun n ch => 10 * n + (ch.toNat - 0x30)) 0)
  else none

/-- What a token of a line is (R85 to R88). -/
inductive Token
  | register (v : Slot)
  | immediate (v : Slot)
  | directive
  | mnemonic (m : List Char)
  | malformed
deriving DecidableEq, Repr

/-- The token `$` followed by `body` (R85): digits only, at most 2^31 - 1. -/
def registerToken (body : List Char) : Token :=
  match parseDigits body with
  | some n => if n ≤ 2147483647 then .register (BitVec.ofNat 32 n) else .malformed
  | none => .malformed

/-- The token `#` followed by `body` (R86): an optional `-` and digits, in [-2^31, 2^31 - 1]. -/
def immediateToken (body : List Char) : Token :=
  match body with
  | '-' :: ds =>
    match parseDigits ds with
    | some n => if n ≤ 2147483648 then .immediate (BitVec.ofInt 32 (-(n : Int))) else .malformed
    | none => .malformed
  | ds =>
    match parseDigits ds with
    | some n => if n ≤ 2147483647 then .immediate (BitVec.ofNat 32 n) else .malformed
    | none => .malformed

/-- Classifies a token "by the first test that holds, in this order: first character `$`; first
character `#`; first character `.` or `@`; last character `:`; otherwise mnemonic" (R89). -/
def classify (t : List Char) : Token :=
  match t with
  | '$' :: body => registerToken body
  | '#' :: body => immediateToken body
  | '.' :: _ => .directive
  | '@' :: _ => .directive
  | t => if t.getLast? = some ':' then .directive else .mnemonic t

/-- The value an operand token puts into a slot (R90); other tokens fill no slot. -/
def Token.operand? : Token → Option Slot
  | .register v => some v
  | .immediate v => some v
  | .directive => none
  | .mnemonic _ => none
  | .malformed => none

/-- The string of a mnemonic token (R88). -/
def Token.mnemonic? : Token → Option (List Char)
  | .mnemonic m => some m
  | .register _ => none
  | .immediate _ => none
  | .directive => none
  | .malformed => none

/-- The Instruction with the operand tokens in slots 0, 1, 2 "in the order they appear in the line;
a slot that no token fills is 0" (R90). -/
def fillSlots (op : Opcode) (operands : List Slot) : Instruction :=
  ⟨op, operands.getD 0 0, operands.getD 1 0, operands.getD 2 0⟩

/-- The result of decoding a line from its tokens (R91): malformed lines (a malformed token, a second
mnemonic, a fourth operand), lines with no mnemonic and lines with an unknown one give
`{ ILLEGAL, [0, 0, 0] }`. -/
def decodeTokens (ts : List Token) : Instruction :=
  match ts.filterMap Token.mnemonic? with
  | [m] =>
    if ts.contains .malformed || 3 < (ts.filterMap Token.operand?).length then
      Instruction.illegalZero
    else
      match Opcode.fromMnemonic m with
      | .illegal => Instruction.illegalZero
      | op => fillSlots op (ts.filterMap Token.operand?)
  | _ => Instruction.illegalZero

/-- One line of source to one Instruction (R84 to R91). -/
def decodeLine (line : List Char) : Instruction := decodeTokens ((splitTokens line).map classify)

/-- "A program text is cut into lines at each U+000A; the text after the last U+000A is a line too if
it is not empty" (R92). -/
def cutLines : List Char → List (List Char)
  | [] => []
  | ch :: rest => if ch.toNat == 0x0A then [] :: cutLines rest else consFirst ch (cutLines rest)

/-- A whole textual program: "line k (from 0) becomes instruction k" (R92). -/
def decodeText (text : List Char) : List Instruction := (cutLines text).map decodeLine

/-- The characters of a UTF-8 byte stream as the textual decoder sees them, one a byte (log 10). -/
def charsOfUtf8 (bytes : List Byte) : List Char := bytes.map fun b => Char.ofNat b.toNat

/-! ## The encoder (R83) and the line of an Instruction -/

/-- The low byte of a slot. -/
def Slot.lowByte (v : Slot) : Byte := v.extractLsb' 0 8

/-- The second byte of a slot, bits 15 down to 8. -/
def Slot.highByte (v : Slot) : Byte := v.extractLsb' 8 8

/-- The four bytes of a well-formed instruction (R83): `0x01, I.a, I.b[15:8], I.b[7:0]` for LOAD and
`toCode(op), I.a, I.b, I.c` for every other operation. -/
def encode : Instr → List Byte
  | .hlt a b c => [0x00, a.lowByte, b.lowByte, c.lowByte]
  | .load rd imm _ => [0x01, rd.lowByte, imm.highByte, imm.lowByte]
  | .add ra rb rd => [0x02, ra.lowByte, rb.lowByte, rd.lowByte]
  | .sub ra rb rd => [0x03, ra.lowByte, rb.lowByte, rd.lowByte]
  | .mul ra rb rd => [0x04, ra.lowByte, rb.lowByte, rd.lowByte]
  | .div ra rb rd => [0x05, ra.lowByte, rb.lowByte, rd.lowByte]
  | .jmp ra b c => [0x06, ra.lowByte, b.lowByte, c.lowByte]
  | .jmpf ra b c => [0x07, ra.lowByte, b.lowByte, c.lowByte]
  | .jmpb ra b c => [0x08, ra.lowByte, b.lowByte, c.lowByte]
  | .eq ra rb c => [0x09, ra.lowByte, rb.lowByte, c.lowByte]
  | .neq ra rb c => [0x0A, ra.lowByte, rb.lowByte, c.lowByte]
  | .gt ra rb c => [0x0B, ra.lowByte, rb.lowByte, c.lowByte]
  | .lt ra rb c => [0x0C, ra.lowByte, rb.lowByte, c.lowByte]
  | .gtq ra rb c => [0x0D, ra.lowByte, rb.lowByte, c.lowByte]
  | .ltq ra rb c => [0x0E, ra.lowByte, rb.lowByte, c.lowByte]
  | .jeq ra b c => [0x0F, ra.lowByte, b.lowByte, c.lowByte]
  | .aloc ra b c => [0x10, ra.lowByte, b.lowByte, c.lowByte]
  | .inc ra b c => [0x11, ra.lowByte, b.lowByte, c.lowByte]
  | .dec ra b c => [0x12, ra.lowByte, b.lowByte, c.lowByte]

/-- The encoding of any Instruction, `none` where "any other Instruction has no binary encoding"
(R83). -/
def encodeInstruction? (I : Instruction) : Option (List Byte) :=
  match I.instr? with
  | some i => if i.wellFormed then some (encode i) else none
  | none => none

/-- The byte stream of a program all of whose instructions are well-formed (R83, R72). -/
def encodeProgram (program : List Instr) : List Byte := program.flatMap encode

/-- The ASCII digit of a number below 10. -/
def digitChar (n : Nat) : Char := Char.ofNat (0x30 + n)

/-- The decimal digits of a number, at most `fuel` of them. -/
def decimalDigits : Nat → Nat → List Char
  | 0, _ => []
  | fuel + 1, n =>
    if n < 10 then [digitChar n] else decimalDigits fuel (n / 10) ++ [digitChar (n % 10)]

/-- The decimal digits of a slot's magnitude, which has at most ten. -/
def decimal (n : Nat) : List Char := decimalDigits 10 n

/-- A slot written as an immediate token, `#` and its signed decimal value (R86). -/
def immediateText (v : Slot) : List Char :=
  if v.toInt < 0 then '#' :: '-' :: decimal v.toInt.natAbs else '#' :: decimal v.toInt.natAbs

/-- A slot written as a register token where its value is not negative (R85), else as an immediate
token, which fills the slot in the same way (R90). -/
def registerText (v : Slot) : List Char :=
  if v.toInt < 0 then immediateText v else '$' :: decimal v.toInt.natAbs

/-- The line `MNEMONIC $a $b $c` of an instruction (`MNEMONIC $a #b $c` for LOAD), all three slots
written out (R84, R90; log 11: the hardware has no such writer). -/
def lineOf (i : Instr) : List Char :=
  let I := i.toInstruction
  let second := match I.opcode with
    | .load => immediateText I.b
    | _ => registerText I.b
  I.opcode.mnemonic?.getD [] ++ ' ' :: registerText I.a ++ ' ' :: second ++ ' ' :: registerText I.c

end Sys2Proof
end

