-- ==== Sys2Proof/Machine/State.lean ====
section
/-!
DEFINITION. The state of the core, its reset value, and the reasons a step can stop (10_state.md
rules R20 to R37; 60_exceptions.md rules R201 and R202; 70_reset_and_hazards.md rule R231).
-/

namespace Sys2Proof.Machine

/-- The kinds of `HaltedOnFault(kind)`; "the list is closed" (R202). -/
inductive FaultKind
  | registerOutOfRange
  | divisionByZero
  | programCounterUnderflow
  | programCounterOverflow
  | negativeAllocation
deriving DecidableEq, Repr

/-- The four forms of outcome (R201). -/
inductive HaltOutcome
  | haltedNormally
  | haltedOnIllegalOpcode
  | haltedOnFault (kind : FaultKind)
  | haltedOnExhaustion
deriving DecidableEq, Repr

/-- `run_state` together with `outcome` (R32): the outcome is "none while Running and, once Halted,
exactly one of" the four, so it is stored where the engine is Halted (log 5). -/
inductive Engine
  | running
  | halted (o : HaltOutcome)
deriving DecidableEq, Repr

/-- `run_state` (R32). -/
inductive RunState
  | running
  | halted
deriving DecidableEq, Repr

/-- The heap (R36, R52): bytes at addresses 0 to `len - 1`. `cells` lists the bytes that are not 0,
addresses strictly rising; an address below `len` that is not listed holds 0 ("zero-filled on
growth", R53), and no address from `len` up exists (R51). -/
structure Memory where
  len : Nat
  cells : List Host.Cell
deriving DecidableEq, Repr

/-- The whole state of the core (R20). -/
structure State where
  /-- `x[0]` to `x[31]` (R21); none is hardwired (R22). -/
  regs : Vector Word 32
  /-- The index of the next instruction to fetch (R25); unbounded as R8 permits (log 2). -/
  pc : Nat
  /-- The comparison flag (R29). -/
  equal : Bool
  /-- The last DIV's remainder, 32 bits read as unsigned (R31). -/
  remainder : Word
  /-- The heap and its length (R36). -/
  heap : Memory
  /-- The program store (R35). -/
  program : List Instruction
  /-- Run state and outcome (R32). -/
  run : Engine
  /-- The machine's capacities, PROGRAM_MAX and HEAP_MAX: the model's own field (R8, log 6). -/
  capacity : Config
deriving DecidableEq, Repr

/-- `run_state` of R32. -/
def State.runState (s : State) : RunState :=
  match s.run with
  | .running => .running
  | .halted _ => .halted

/-- `outcome` of R32: none while Running. -/
def State.outcome (s : State) : Option HaltOutcome :=
  match s.run with
  | .running => none
  | .halted o => some o

/-- The state right after reset (R231), with the empty program store: a program is given by the
host (R230, log 4). Registers, flag, remainder and heap hold the values R231 takes by decision D14
(log 1, unsafe). -/
def State.reset : State where
  regs := Vector.replicate 32 0
  pc := 0
  equal := false
  remainder := 0
  heap := ⟨0, []⟩
  program := []
  run := .running
  capacity := Config.default

/-- Faults of the model. The faults of the SPEC are no stop: raising one gives a next state that is
Halted (60_exceptions.md rule R204). -/
inductive Fault
  /-- Raised by the heap primitives `memRead` and `memWrite` alone, for a range that is not inside
  the heap: the addresses do not exist (R51) and R54, R55 define nothing there (93 U8). No
  instruction and no host operation calls them. Safe: the model stops. -/
  | heapRangeAbsent
deriving DecidableEq, Repr

/-- Refusals of the model. -/
inductive Refusal
  /-- An instruction that has no meaning in the model yet; no arm of `exec` answers so. Safe: the
  model stops. -/
  | notModelled (mnemonic : String)
  /-- Raised by ALOC where a finite HEAP_MAX would be passed: "the model refuses such a step" (R53,
  93 U6). Never raised where the heap has no bound. Safe: the model stops. -/
  | heapPastMax
  /-- Raised by the host operations Reset and Append where PROGRAM_MAX would be passed (R230, R236,
  93 U7). No step raises it. Safe: the operation changes nothing. -/
  | programPastMax
deriving DecidableEq, Repr

end Sys2Proof.Machine
end

