-- ==== Sys2Proof/Machine/Ops.lean ====
section
/-!
DEFINITION. The primitives of the spec's pseudocode (00_scope.md rules R10 and R11): arithmetic
helpers, register and flag access, halting and raising a fault, the heap primitives, the fetch.
-/

namespace Sys2Proof.Machine

/-! ## Arithmetic helpers (R10) -/

/-- `wrap32(n)`: the one value in [-2^31, 2^31 - 1] congruent to n modulo 2^32. -/
def wrap32 (n : Int) : Word := BitVec.ofInt 32 n

/-- `u32(n)`: n modulo 2^32, the 32 bits to be read as unsigned. -/
def u32 (n : Int) : Word := BitVec.ofInt 32 n

/-- `trunc_div(a, b)`: the quotient rounded toward zero. -/
def truncDiv (a b : Int) : Int := a.tdiv b

/-- `trunc_rem(a, b) = a - b * trunc_div(a, b)`. -/
def truncRem (a b : Int) : Int := a - b * truncDiv a b

/-! ## Registers, flag, pc (R11) -/

/-- `x[i]`, all 32 bits; no register is hardwired (R22). -/
def State.x (s : State) (i : Fin 32) : Word := s.regs[i]

/-- The signed integer that `x[i]` holds (R10, R21). -/
def State.xInt (s : State) (i : Fin 32) : Int := (s.x i).toInt

/-- `x[i] <- v`. -/
def State.setX (s : State) (i : Fin 32) (v : Word) : State := { s with regs := s.regs.set i v }

/-- `pc <- t`. -/
def State.setPc (s : State) (t : Nat) : State := { s with pc := t }

/-- `equal <- v`. -/
def State.setEqual (s : State) (v : Bool) : State := { s with equal := v }

/-- `remainder <- v`. -/
def State.setRemainder (s : State) (v : Word) : State := { s with remainder := v }

/-! ## Halting and faults (60_exceptions.md) -/

/-- `halt(o)`: `run_state <- Halted`, `outcome <- o`, nothing else (R11). -/
def State.halt (s : State) (o : HaltOutcome) : State := { s with run := .halted o }

/-- Taking an exception, `raise Fault(kind)` (R204): Halted with `HaltedOnFault(kind)`, and "it
writes nothing else". There is no handler, no saved pc or status and no vector (R214), and no return
from it: "the one way out of Halted is a reset by the host" (R216). -/
def State.raiseFault (s : State) (kind : FaultKind) : State := s.halt (.haltedOnFault kind)

/-! ## The heap primitives (20_memory.md) -/

/-- The addresses of the cells rise strictly. -/
def Memory.rising : List Host.Cell → Bool
  | [] => true
  | [_] => true
  | c :: d :: rest => decide (c.1 < d.1) && Memory.rising (d :: rest)

/-- The canonical form: addresses strictly rising, no listed byte 0, every listed address inside the
heap. -/
def Memory.wf (m : Memory) : Bool :=
  Memory.rising m.cells && m.cells.all fun c => decide (c.1 < m.len) && decide (c.2 ≠ 0)

/-- What an address of the heap that is not listed reads as: "zero-filled on growth" (R53). -/
def Memory.unlisted : Byte := 0

/-- The byte listed for an address, or the one an unlisted address holds. -/
def Memory.lookup : List Host.Cell → Nat → Byte
  | [], _ => Memory.unlisted
  | c :: rest, a => if c.1 = a then c.2 else Memory.lookup rest a

/-- One byte of the heap; `none` where the address does not exist (R51). -/
def Memory.byte? (m : Memory) (a : Nat) : Option Byte :=
  if a < m.len then some (Memory.lookup m.cells a) else none

/-- A cell put into a list of rising cells in place of any other of its address; a byte equal to what
an unlisted address reads as is not listed. -/
def Memory.place (a : Nat) (b : Byte) : List Host.Cell → List Host.Cell
  | [] => if b = Memory.unlisted then [] else [(a, b)]
  | c :: rest =>
    if c.1 < a then c :: Memory.place a b rest
    else if c.1 = a then (if b = Memory.unlisted then rest else (a, b) :: rest)
    else (if b = Memory.unlisted then c :: rest else (a, b) :: c :: rest)

/-- Bytes stored at rising addresses from `a` on. -/
def Memory.placeAll (cells : List Host.Cell) (a : Nat) : List Byte → List Host.Cell
  | [] => cells
  | b :: bs => Memory.placeAll (Memory.place a b cells) (a + 1) bs

/-- `n` zero bytes appended at addresses `len` to `len + n - 1` (R53); bytes already there keep
address and value. -/
def Memory.grow (m : Memory) (n : Nat) : Memory := { m with len := m.len + n }

/-- The heap may have `n` more bytes: HEAP_MAX is not passed (R53). -/
def State.heapMayGrow (s : State) (n : Nat) : Bool :=
  match s.capacity.heapMax with
  | none => true
  | some bound => decide (s.heap.len + n ≤ bound)

/-- `HeapGrow(n)` (R53); a growth past a finite HEAP_MAX is refused (93 U6). -/
def heapGrow (n : Nat) (s : State) : Host.Outcome State Fault Refusal :=
  if s.heapMayGrow n then .next { s with heap := s.heap.grow n } else .refused .heapPastMax

/-- `MemRead(addr, n)` (R54), in bounds only; called by nothing (R56). -/
def memRead (addr n : Nat) (s : State) : Host.Outcome (List Byte) Fault Refusal :=
  if 1 ≤ n ∧ addr + n ≤ s.heap.len then
    .next ((List.range n).map fun i => Memory.lookup s.heap.cells (addr + i))
  else .fault .heapRangeAbsent

/-- `MemWrite(addr, n, bytes)` with n the length of `bytes` (R55), in bounds only; called by nothing
(R56). -/
def memWrite (addr : Nat) (bytes : List Byte) (s : State) : Host.Outcome State Fault Refusal :=
  if 1 ≤ bytes.length ∧ addr + bytes.length ≤ s.heap.len then
    .next { s with heap := { s.heap with cells := Memory.placeAll s.heap.cells addr bytes } }
  else .fault .heapRangeAbsent

/-! ## Control transfer (43_jumps.md) -/

/-- The end of every jump (R165): a target below 0 raises ProgramCounterUnderflow and leaves the pc
as the fetch left it; any other target is written to the pc, without a test against the end of the
program, which the next fetch makes (R111). -/
def jumpTo (t : Int) (s : State) : Host.Outcome State Fault Refusal :=
  if t < 0 then .next (s.raiseFault .programCounterUnderflow) else .next (s.setPc t.toNat)

/-! ## The fetch (40_engine_step.md rule R111) -/

/-- What a fetch finds. -/
inductive Fetch
  | fetched (I : Instruction) (s : State)
  | exhausted
  | pastEnd
deriving DecidableEq, Repr

/-- Fetches `program[pc]` and advances the pc past it; at the end of the program nothing is
available, and a pc above the end is out of range (R111). -/
def fetch (s : State) : Fetch :=
  match s.program[s.pc]? with
  | some I => .fetched I (s.setPc (s.pc + 1))
  | none => if s.pc = s.program.length then .exhausted else .pastEnd

/-- The program store with an Instruction at index `k`; indexes below `k` that the store does not
have are filled with ILLEGAL. -/
def placeInstruction (program : List Instruction) (k : Nat) (I : Instruction) : List Instruction :=
  program.take k ++ List.replicate (k - program.length) Instruction.illegalZero ++
    I :: program.drop (k + 1)

end Sys2Proof.Machine
end

