-- ==== Sys2Proof/Machine/Operands.lean ====
section
/-!
DEFINITION. Register operands: the roles of the slots (30_encoding.md rule R76) and the register-index
check that precedes every body (40_engine_step.md rule R114).
-/

namespace Sys2Proof.Machine

/-- The register a slot names, `none` where its value is not in 0..31: "if any such slot value v is
not in 0 <= v <= 31" (R114). -/
def regIndex? (v : Slot) : Option (Fin 32) :=
  if h : 0 ≤ v.toInt ∧ v.toInt ≤ 31 then some ⟨v.toInt.toNat, by omega⟩ else none

/-- A body with one register slot, behind the check of R114. -/
def withReg (a : Slot) (s : State) (body : Fin 32 → Host.Outcome State Fault Refusal) :
    Host.Outcome State Fault Refusal :=
  match regIndex? a with
  | some i => body i
  | none => .next (s.raiseFault .registerOutOfRange)

/-- A body with two register slots: "all register slots of the operation are checked before any
register is read or written" (R114). -/
def withRegs2 (a b : Slot) (s : State)
    (body : Fin 32 → Fin 32 → Host.Outcome State Fault Refusal) :
    Host.Outcome State Fault Refusal :=
  withReg a s fun i => withReg b s fun j => body i j

/-- A body with three register slots, behind the check of R114. -/
def withRegs3 (a b c : Slot) (s : State)
    (body : Fin 32 → Fin 32 → Fin 32 → Host.Outcome State Fault Refusal) :
    Host.Outcome State Fault Refusal :=
  withReg a s fun i => withReg b s fun j => withReg c s fun k => body i j k

/-- The slots R76 marks as "register slots checked at execute", for each operation. -/
def registerSlots : Instr → List Slot
  | .hlt _ _ _ => []
  | .load rd _ _ => [rd]
  | .add ra rb rd => [ra, rb, rd]
  | .sub ra rb rd => [ra, rb, rd]
  | .mul ra rb rd => [ra, rb, rd]
  | .div ra rb rd => [ra, rb, rd]
  | .jmp ra _ _ => [ra]
  | .jmpf ra _ _ => [ra]
  | .jmpb ra _ _ => [ra]
  | .eq ra rb _ => [ra, rb]
  | .neq ra rb _ => [ra, rb]
  | .gt ra rb _ => [ra, rb]
  | .lt ra rb _ => [ra, rb]
  | .gtq ra rb _ => [ra, rb]
  | .ltq ra rb _ => [ra, rb]
  | .jeq ra _ _ => [ra]
  | .aloc ra _ _ => [ra]
  | .inc ra _ _ => [ra]
  | .dec ra _ _ => [ra]

end Sys2Proof.Machine
end

