-- ==== Sys2Proof/Machine/Arithmetic.lean ====
section
/-!
DEFINITION. Integer arithmetic (42_arithmetic.md rules R140 to R148): operands are read as signed
integers, the result is exact, and it is wrapped to 32 bits when it is written (R141).
-/

namespace Sys2Proof.Machine

/-- `x[Rd] <- wrap32(op(x[Ra], x[Rb]))`, the sources read before the destination is written (R143). -/
def arith (ra rb rd : Slot) (op : Int → Int → Int) (s : State) :
    Host.Outcome State Fault Refusal :=
  withRegs3 ra rb rd s fun i j k => .next (s.setX k (wrap32 (op (s.xInt i) (s.xInt j))))

/-- ADD Ra, Rb, Rd (R143). -/
def execAdd (ra rb rd : Slot) (s : State) : Host.Outcome State Fault Refusal :=
  arith ra rb rd (fun a b => a + b) s

/-- SUB Ra, Rb, Rd (R144): `x[Ra]` minus `x[Rb]`. -/
def execSub (ra rb rd : Slot) (s : State) : Host.Outcome State Fault Refusal :=
  arith ra rb rd (fun a b => a - b) s

/-- MUL Ra, Rb, Rd (R145): the low 32 bits of the product. -/
def execMul (ra rb rd : Slot) (s : State) : Host.Outcome State Fault Refusal :=
  arith ra rb rd (fun a b => a * b) s

/-- DIV Ra, Rb, Rd (R146): a zero divisor faults before any write; else the truncated quotient and
the remainder's 32 bits are written. -/
def execDiv (ra rb rd : Slot) (s : State) : Host.Outcome State Fault Refusal :=
  withRegs3 ra rb rd s fun i j k =>
    if s.xInt j = 0 then .next (s.raiseFault .divisionByZero)
    else .next ((s.setX k (wrap32 (truncDiv (s.xInt i) (s.xInt j)))).setRemainder
      (u32 (truncRem (s.xInt i) (s.xInt j))))

/-- INC Ra (R147). -/
def execInc (ra : Slot) (s : State) : Host.Outcome State Fault Refusal :=
  withReg ra s fun i => .next (s.setX i (wrap32 (s.xInt i + 1)))

/-- DEC Ra (R148). -/
def execDec (ra : Slot) (s : State) : Host.Outcome State Fault Refusal :=
  withReg ra s fun i => .next (s.setX i (wrap32 (s.xInt i - 1)))

end Sys2Proof.Machine
end

