-- ==== Sys2Proof/Machine/Flags.lean ====
section
/-!
DEFINITION. The values the six comparisons write to the flag `equal` (44_compare.md rules R180 to
R187): each is the truth of one relation between two registers read as signed integers.
-/

namespace Sys2Proof.Machine

/-- `x[Ra] = x[Rb]` (R181). -/
def flagEq (a b : Word) : Bool := decide (a.toInt = b.toInt)

/-- `x[Ra] != x[Rb]` (R182). -/
def flagNeq (a b : Word) : Bool := decide (a.toInt ≠ b.toInt)

/-- `x[Ra] > x[Rb]`, signed (R183). -/
def flagGt (a b : Word) : Bool := decide (a.toInt > b.toInt)

/-- `x[Ra] < x[Rb]`, signed (R184). -/
def flagLt (a b : Word) : Bool := decide (a.toInt < b.toInt)

/-- `x[Ra] >= x[Rb]`, signed (R185). -/
def flagGtq (a b : Word) : Bool := decide (a.toInt ≥ b.toInt)

/-- `x[Ra] <= x[Rb]`, signed (R186). -/
def flagLtq (a b : Word) : Bool := decide (a.toInt ≤ b.toInt)

/-- A comparison (R180): both register slots are checked, and `equal` is overwritten with the value
`rel` gives for the two registers, whatever it held. -/
def compareRegs (ra rb : Slot) (rel : Word → Word → Bool) (s : State) :
    Host.Outcome State Fault Refusal :=
  withRegs2 ra rb s fun i j => .next (s.setEqual (rel (s.x i) (s.x j)))

end Sys2Proof.Machine
end

