-- ==== Sys2Proof/Machine/Compare.lean ====
section
/-!
DEFINITION. The six comparisons (44_compare.md rules R180 to R186).
-/

namespace Sys2Proof.Machine

/-- EQ Ra, Rb (R181). -/
def execEq (ra rb : Slot) (s : State) : Host.Outcome State Fault Refusal :=
  compareRegs ra rb flagEq s

/-- NEQ Ra, Rb (R182). -/
def execNeq (ra rb : Slot) (s : State) : Host.Outcome State Fault Refusal :=
  compareRegs ra rb flagNeq s

/-- GT Ra, Rb (R183). -/
def execGt (ra rb : Slot) (s : State) : Host.Outcome State Fault Refusal :=
  compareRegs ra rb flagGt s

/-- LT Ra, Rb (R184). -/
def execLt (ra rb : Slot) (s : State) : Host.Outcome State Fault Refusal :=
  compareRegs ra rb flagLt s

/-- GTQ Ra, Rb (R185). -/
def execGtq (ra rb : Slot) (s : State) : Host.Outcome State Fault Refusal :=
  compareRegs ra rb flagGtq s

/-- LTQ Ra, Rb (R186). -/
def execLtq (ra rb : Slot) (s : State) : Host.Outcome State Fault Refusal :=
  compareRegs ra rb flagLtq s

end Sys2Proof.Machine
end

