-- ==== Sys2Proof/Machine/Control.lean ====
section
/-!
DEFINITION. HLT and ILLEGAL (40_engine_step.md rules R117 and R118). Every meaning runs on the state
the fetch left, so the pc is already k + 1 (10_state.md rule R26).
-/

namespace Sys2Proof.Machine

/-- HLT (R117): "normal termination, not an error". -/
def execHlt (s : State) : Host.Outcome State Fault Refusal := .next (s.halt .haltedNormally)

/-- ILLEGAL (R118): distinguishable from HLT; no slot is looked at. It is no arm of `exec`. -/
def execIllegal (s : State) : Host.Outcome State Fault Refusal :=
  .next (s.halt .haltedOnIllegalOpcode)

end Sys2Proof.Machine
end

