-- ==== Sys2Proof/Machine/Heap.lean ====
section
/-!
DEFINITION. ALOC (45_heap.md rule R195).
-/

namespace Sys2Proof.Machine

/-- ALOC Ra (R195): a negative amount faults with the heap unchanged; else the heap grows by the
amount. -/
def execAloc (ra : Slot) (s : State) : Host.Outcome State Fault Refusal :=
  withReg ra s fun i =>
    if s.xInt i < 0 then .next (s.raiseFault .negativeAllocation)
    else heapGrow (s.xInt i).toNat s

end Sys2Proof.Machine
end

