-- ==== Sys2Proof/Machine/Jumps.lean ====
section
/-!
DEFINITION. Control transfer (43_jumps.md rules R160 to R165). The pc of the state is already k + 1,
and a relative distance is added to it over the integers.
-/

namespace Sys2Proof.Machine

/-- JMP Ra (R161): absolute. -/
def execJmp (ra : Slot) (s : State) : Host.Outcome State Fault Refusal :=
  withReg ra s fun i => jumpTo (s.xInt i) s

/-- JMPF Ra (R162): `pc + x[Ra]`, the distance signed. -/
def execJmpf (ra : Slot) (s : State) : Host.Outcome State Fault Refusal :=
  withReg ra s fun i => jumpTo (s.pc + s.xInt i) s

/-- JMPB Ra (R163): `pc - x[Ra]`, the distance signed. -/
def execJmpb (ra : Slot) (s : State) : Host.Outcome State Fault Refusal :=
  withReg ra s fun i => jumpTo (s.pc - s.xInt i) s

/-- JEQ Ra (R164): the register slot is checked in either case; the jump is taken where `equal` is
set, and the flag is left as it is. -/
def execJeq (ra : Slot) (s : State) : Host.Outcome State Fault Refusal :=
  withReg ra s fun i => if s.equal then jumpTo (s.xInt i) s else .next s

end Sys2Proof.Machine
end

