-- ==== Sys2Proof/Machine/Load.lean ====
section
/-!
DEFINITION. LOAD (41_load.md rule R130).
-/

namespace Sys2Proof.Machine

/-- LOAD Rd, imm (R130): `x[I.a] <- I.b`; the slot already holds the integer, whichever decoder built
it. -/
def execLoad (rd imm : Slot) (s : State) : Host.Outcome State Fault Refusal :=
  withReg rd s fun d => .next (s.setX d imm)

end Sys2Proof.Machine
end

