-- ==== Sys2Proof/Machine/Dispatch.lean ====
section
/-!
DEFINITION. The dispatch on the operation (40_engine_step.md rules R112 and R113), on the state the
fetch left (pc = k + 1).
-/

namespace Sys2Proof.Machine

def exec (i : Instr) (s : State) : Host.Outcome State Fault Refusal :=
  match i with
  | .hlt _ _ _ => Sys2Proof.Machine.execHlt s
  | .load rd imm _ => Sys2Proof.Machine.execLoad rd imm s
  | .add ra rb rd => Sys2Proof.Machine.execAdd ra rb rd s
  | .sub ra rb rd => Sys2Proof.Machine.execSub ra rb rd s
  | .mul ra rb rd => Sys2Proof.Machine.execMul ra rb rd s
  | .div ra rb rd => Sys2Proof.Machine.execDiv ra rb rd s
  | .jmp ra _ _ => Sys2Proof.Machine.execJmp ra s
  | .jmpf ra _ _ => Sys2Proof.Machine.execJmpf ra s
  | .jmpb ra _ _ => Sys2Proof.Machine.execJmpb ra s
  | .eq ra rb _ => Sys2Proof.Machine.execEq ra rb s
  | .neq ra rb _ => Sys2Proof.Machine.execNeq ra rb s
  | .gt ra rb _ => Sys2Proof.Machine.execGt ra rb s
  | .lt ra rb _ => Sys2Proof.Machine.execLt ra rb s
  | .gtq ra rb _ => Sys2Proof.Machine.execGtq ra rb s
  | .ltq ra rb _ => Sys2Proof.Machine.execLtq ra rb s
  | .jeq ra _ _ => Sys2Proof.Machine.execJeq ra s
  | .aloc ra _ _ => Sys2Proof.Machine.execAloc ra s
  | .inc ra _ _ => Sys2Proof.Machine.execInc ra s
  | .dec ra _ _ => Sys2Proof.Machine.execDec ra s

end Sys2Proof.Machine
end

