-- ==== Sys2Proof/Machine/Cycle.lean ====
section
/-!
DEFINITION. One step of the engine in the order of 40_engine_step.md rule R115 (60_exceptions.md rule
R213).
-/

namespace Sys2Proof.Machine

/-- Runs a fetched Instruction on the state the fetch left: ILLEGAL halts, every other Instruction is
executed (R112, R118). -/
def runInstruction (I : Instruction) (s : State) : Host.Outcome State Fault Refusal :=
  match I.instr? with
  | some i => exec i s
  | none => execIllegal s

/-- One step (R115): a Halted engine stays as it is (R119); a fetch past the end is
ProgramCounterOverflow and a fetch at the end is exhaustion, both with the pc unchanged (R111);
otherwise the fetched Instruction runs. -/
def cycle (s : State) : Host.Outcome State Fault Refusal :=
  match s.run with
  | .halted _ => .next s
  | .running =>
    match fetch s with
    | .pastEnd => .next (s.raiseFault .programCounterOverflow)
    | .exhausted => .next (s.halt .haltedOnExhaustion)
    | .fetched I s' => runInstruction I s'

/-- The state with an Instruction where the next step fetches, and Running, since a Halted engine
fetches nothing (log 4). -/
def State.withNext (s : State) (I : Instruction) : State :=
  { s with program := placeInstruction s.program s.pc I, run := .running }

end Sys2Proof.Machine
end

