-- ==== Sys2Proof/Machine/Step.lean ====
section
/-!
DEFINITION. The step of the machine, and a word of the opcode table placed where the next step
fetches.
-/

namespace Sys2Proof.Machine

/-- One step of the engine (40_engine_step.md rule R115). -/
def step (s : State) : Host.Outcome State Fault Refusal := cycle s

/-- The state whose next step fetches and runs the Instruction the decoder reads from a word of
spec/opcode_table.json (log 4, log 8). -/
def State.withFetchWord (s : State) (nbits w : Nat) : State :=
  s.withNext (instructionOfTableWord nbits w)

end Sys2Proof.Machine
end

