-- ==== Sys2Proof/Machine/HostSurface.lean ====
section
/-!
DEFINITION. The operations of the host (70_reset_and_hazards.md rules R230 to R241) and the numeric
status codes (60_exceptions.md rule R203). The host acts only between steps (R239).
-/

namespace Sys2Proof.Machine

/-- `Reset(P)` (R230, R231): the whole previous state is discarded, every piece of state takes its
reset value, `program <- P`; the capacities are the machine's and stay. Past PROGRAM_MAX it is
refused (93 U7). -/
def hostReset (P : List Instruction) (s : State) : Host.Outcome State Fault Refusal :=
  if P.length ≤ s.capacity.programMax then
    .next { State.reset with program := P, capacity := s.capacity }
  else .refused .programPastMax

/-- `LoadBinary(bytes) = Reset(DecodeBinary(bytes))` (R234). -/
def loadBinary (bytes : List Byte) (s : State) : Host.Outcome State Fault Refusal :=
  hostReset (decodeBinary bytes) s

/-- `LoadText(text) = Reset(DecodeText(text))` (R234). -/
def loadText (text : List Char) (s : State) : Host.Outcome State Fault Refusal :=
  hostReset (decodeText text) s

/-- `Append(I)` (R236): the Instruction goes to the end of the program store and nothing else
changes; at PROGRAM_MAX it is refused (93 U7). -/
def hostAppend (I : Instruction) (s : State) : Host.Outcome State Fault Refusal :=
  if s.program.length < s.capacity.programMax then .next { s with program := s.program ++ [I] }
  else .refused .programPastMax

/-- What `Step()` returns: `Continue` or `Halted(outcome)` (R110, R222). -/
inductive StepReport
  | continues
  | halted (o : HaltOutcome)
deriving DecidableEq, Repr

/-- What a step that ended in this state reports (R110). -/
def State.report (s : State) : StepReport :=
  match s.run with
  | .running => .continues
  | .halted o => .halted o

/-- `Step()` (R240): one step, with its report. -/
def hostStep (s : State) : Host.Outcome (State × StepReport) Fault Refusal :=
  match step s with
  | .next t => .next (t, t.report)
  | .fault f => .fault f
  | .refused r => .refused r

/-- `Run()`, "call step until the state is Halted" (R120), cut off after `bound` steps: the bound is
the model's own (93 U14, log 12). A run cut off reports `continues`. -/
def hostRun (bound : Nat) (s : State) : Host.Outcome (State × StepReport) Fault Refusal :=
  match bound with
  | 0 => .next (s, s.report)
  | n + 1 =>
    match s.run with
    | .halted o => .next (s, .halted o)
    | .running =>
      match step s with
      | .next t => hostRun n t
      | .fault f => .fault f
      | .refused r => .refused r

/-- "Read current register values (all 32)" (R237). -/
def readRegisters (s : State) : List Word := s.regs.toList

/-- "Read current flag" (R237). -/
def readFlag (s : State) : Bool := s.equal

/-- "Read current heap length" (R237); the bytes are not readable. -/
def readHeapLength (s : State) : Nat := s.heap.len

/-- The pc, which the host may read (R237). -/
def readPc (s : State) : Nat := s.pc

/-- The remainder, which the host may read (R237). -/
def readRemainder (s : State) : Word := s.remainder

/-- The run state, which the host may read (R237). -/
def readRunState (s : State) : RunState := s.runState

/-- The outcome, which the host may read (R237, R222). -/
def readOutcome (s : State) : Option HaltOutcome := s.outcome

/-- "Read the decoded program listing" (R238). -/
def readListing (s : State) : List Instruction := s.program

/-- The status code (R203). -/
def statusCode (s : State) : Nat :=
  match s.run with
  | .running => 0
  | .halted .haltedNormally => 1
  | .halted .haltedOnIllegalOpcode => 2
  | .halted .haltedOnExhaustion => 3
  | .halted (.haltedOnFault _) => 4

/-- The number of a fault kind (R203). -/
def FaultKind.code : FaultKind → Nat
  | .registerOutOfRange => 1
  | .divisionByZero => 2
  | .programCounterUnderflow => 3
  | .programCounterOverflow => 4
  | .negativeAllocation => 5

/-- The fault kind code, "with 0 for no fault otherwise" (R203). -/
def faultCode (s : State) : Nat :=
  match s.run with
  | .halted (.haltedOnFault kind) => kind.code
  | .halted .haltedNormally => 0
  | .halted .haltedOnIllegalOpcode => 0
  | .halted .haltedOnExhaustion => 0
  | .running => 0

/-- The three-way report of the source's error section: `HaltedOnExhaustion` maps to
`HaltedNormally` (R201). -/
def HaltOutcome.threeWay : HaltOutcome → HaltOutcome
  | .haltedOnExhaustion => .haltedNormally
  | .haltedNormally => .haltedNormally
  | .haltedOnIllegalOpcode => .haltedOnIllegalOpcode
  | .haltedOnFault kind => .haltedOnFault kind

/-- The instruction that caused a halt, `program[pc - 1]`, where the outcome names one (R215). -/
def haltingInstruction? (s : State) : Option Instruction :=
  match s.run with
  | .halted .haltedNormally => s.program[s.pc - 1]?
  | .halted .haltedOnIllegalOpcode => s.program[s.pc - 1]?
  | .halted (.haltedOnFault .programCounterOverflow) => none
  | .halted (.haltedOnFault _) => s.program[s.pc - 1]?
  | .halted .haltedOnExhaustion => none
  | .running => none

end Sys2Proof.Machine
end

