-- ==== Sys2Proof/Safety.lean ====
section
/-!
DEFINITION. What counts as a safe run, and the predicates the claims are written in.
-/

namespace Sys2Proof

/-! ## Kinds of instruction -/

/-- The six comparisons (44_compare.md rule R180). -/
def Instr.isComparison : Instr → Bool
  | .eq _ _ _ | .neq _ _ _ | .gt _ _ _ | .lt _ _ _ | .gtq _ _ _ | .ltq _ _ _ => true
  | .hlt _ _ _ | .load _ _ _ | .add _ _ _ | .sub _ _ _ | .mul _ _ _ | .div _ _ _ | .jmp _ _ _
  | .jmpf _ _ _ | .jmpb _ _ _ | .jeq _ _ _ | .aloc _ _ _ | .inc _ _ _ | .dec _ _ _ => false

/-- The four control-transfer instructions (43_jumps.md rule R160). -/
def Instr.isJump : Instr → Bool
  | .jmp _ _ _ | .jmpf _ _ _ | .jmpb _ _ _ | .jeq _ _ _ => true
  | .hlt _ _ _ | .load _ _ _ | .add _ _ _ | .sub _ _ _ | .mul _ _ _ | .div _ _ _ | .eq _ _ _
  | .neq _ _ _ | .gt _ _ _ | .lt _ _ _ | .gtq _ _ _ | .ltq _ _ _ | .aloc _ _ _ | .inc _ _ _
  | .dec _ _ _ => false

/-- The instruction is a DIV. -/
def Instr.isDiv (i : Instr) : Prop := ∃ ra rb rd, i = .div ra rb rd

/-- The instruction is an ALOC. -/
def Instr.isAloc (i : Instr) : Prop := ∃ ra b c, i = .aloc ra b c

/-- The instruction is a JEQ. -/
def Instr.isJeq (i : Instr) : Prop := ∃ ra b c, i = .jeq ra b c

/-- The instruction is an HLT. -/
def Instr.isHlt (i : Instr) : Prop := ∃ a b c, i = .hlt a b c

/-- The slot names register `i`: its signed value is i (30_encoding.md rule R76). -/
def Slot.names (v : Slot) (i : Fin 32) : Prop := v.toInt = (i.val : Int)

/-- The slot names no register: its signed value is outside 0..31 (40_engine_step.md rule R114). -/
def Slot.namesNone (v : Slot) : Prop := v.toInt < 0 ∨ 31 < v.toInt

/-- The word is the 32-bit value of the exact integer `n`: its signed value, which lies in
[-2^31, 2^31 - 1], is congruent to n modulo 2^32 (00_scope.md rule R10, `wrap32`). -/
def Word.wraps (v : Word) (n : Int) : Prop := (v.toInt - n) % 2 ^ 32 = 0

namespace Machine

/-- The state after reset with the program of a byte stream in the store (70_reset_and_hazards.md
rule R234). -/
def State.boot (bytes : List Byte) : State := { State.reset with program := decodeBinary bytes }

/-- The engine is Running and the instruction it fetches next is `i`. -/
def State.fetches (s : State) (i : Instr) : Prop :=
  s.run = .running ∧ s.program[s.pc]? = some i.toInstruction

/-! ## Ends of a run -/

/-- The outcome is an error: `HaltedOnIllegalOpcode` or any `HaltedOnFault(kind)`
(70_reset_and_hazards.md rule R241). -/
def HaltOutcome.isError : HaltOutcome → Bool
  | .haltedNormally => false
  | .haltedOnIllegalOpcode => true
  | .haltedOnFault _ => true
  | .haltedOnExhaustion => false

/-- The run has "ended well" (R241). -/
def State.endedWell (s : State) : Bool :=
  match s.run with
  | .running => false
  | .halted o => !o.isError

/-- The run has "ended in error" (R241). -/
def State.endedInError (s : State) : Bool :=
  match s.run with
  | .running => false
  | .halted o => o.isError

/-- `bound` steps from a state keep clear of every error outcome and of every stop of the model. -/
def SafeFor : Nat → State → Prop
  | 0, s => s.endedInError = false
  | n + 1, s => s.endedInError = false ∧ ∃ t, step s = .next t ∧ SafeFor n t

/-! ## Frames: what a transition from `s` to `t` leaves as it was -/

/-- Every byte of the heap reads as before, and the heap has the same length. -/
structure SameHeap (s t : State) : Prop where
  len : t.heap.len = s.heap.len
  bytes : ∀ a, t.heap.byte? a = s.heap.byte? a

/-- Nothing but the pc and the run state may differ. -/
structure SameData (s t : State) : Prop where
  regs : ∀ j, t.x j = s.x j
  equal : t.equal = s.equal
  remainder : t.remainder = s.remainder
  heap : SameHeap s t
  program : t.program = s.program
  capacity : t.capacity = s.capacity

/-- Nothing but the run state and the outcome may differ. -/
structure OnlyRunWritten (s t : State) : Prop extends SameData s t where
  pc : t.pc = s.pc

/-- Nothing but the pc may differ. -/
structure OnlyPcWritten (s t : State) : Prop extends SameData s t where
  run : t.run = s.run

/-- Nothing but register `d` may differ. -/
structure OnlyRegWritten (d : Fin 32) (s t : State) : Prop where
  regs : ∀ j, j ≠ d → t.x j = s.x j
  pc : t.pc = s.pc
  equal : t.equal = s.equal
  remainder : t.remainder = s.remainder
  heap : SameHeap s t
  program : t.program = s.program
  run : t.run = s.run
  capacity : t.capacity = s.capacity

/-- Nothing but register `d` and the remainder register may differ. -/
structure OnlyRegAndRemainderWritten (d : Fin 32) (s t : State) : Prop where
  regs : ∀ j, j ≠ d → t.x j = s.x j
  pc : t.pc = s.pc
  equal : t.equal = s.equal
  heap : SameHeap s t
  program : t.program = s.program
  run : t.run = s.run
  capacity : t.capacity = s.capacity

/-- Nothing but the flag may differ. -/
structure OnlyFlagWritten (s t : State) : Prop where
  regs : ∀ j, t.x j = s.x j
  pc : t.pc = s.pc
  remainder : t.remainder = s.remainder
  heap : SameHeap s t
  program : t.program = s.program
  run : t.run = s.run
  capacity : t.capacity = s.capacity

/-- Nothing but the heap may differ. -/
structure OnlyHeapWritten (s t : State) : Prop where
  regs : ∀ j, t.x j = s.x j
  pc : t.pc = s.pc
  equal : t.equal = s.equal
  remainder : t.remainder = s.remainder
  program : t.program = s.program
  run : t.run = s.run
  capacity : t.capacity = s.capacity

/-- The step ended in `raise Fault(kind)` (60_exceptions.md rule R204): Halted with that outcome, and
nothing else written. -/
structure Raised (kind : FaultKind) (s t : State) : Prop extends OnlyRunWritten s t where
  runState : t.runState = .halted
  outcome : t.outcome = some (.haltedOnFault kind)

/-- The step ended in HLT's, ILLEGAL's or the fetch's own halt: Halted with that outcome, and nothing
but the run state written. -/
structure Halted (o : HaltOutcome) (s t : State) : Prop extends OnlyRunWritten s t where
  runState : t.runState = .halted
  outcome : t.outcome = some o

/-! ## The invariant -/

/-- The heap length keeps HEAP_MAX (00_scope.md rule R8). -/
def State.heapWithinMax (s : State) : Prop :=
  ∀ bound, s.capacity.heapMax = some bound → s.heap.len ≤ bound

/-- The invariant of the machine: the program store keeps PROGRAM_MAX (R35), the pc fits 32 unsigned
bits (R27), the heap is in canonical form, every byte of it is 0 (R36, R56), and it keeps HEAP_MAX. -/
structure State.Inv (s : State) : Prop where
  program_le : s.program.length ≤ s.capacity.programMax
  pc_lt : s.pc < 2 ^ 32
  heap_wf : s.heap.wf = true
  heap_zero : ∀ a, a < s.heap.len → s.heap.byte? a = some 0
  heap_le : s.heapWithinMax

end Machine

end Sys2Proof
end

