-- ==== Sys2Proof/Certificates/Slice0/Obligations.lean ====
section
/-!
DEFINITION. The statements for the provers. `exec i s` runs an instruction on the state the fetch left,
so the pc of `s` is already k + 1 there (10_state.md rule R26, log 9).
-/

open Sys2Proof Sys2Proof.Machine

/-! ## Encodings -/

/-- Sanity: words written out from the encodings of 30_encoding.md rule R95 and
spec/opcode_table.json decode to the instructions they stand for. -/
def Obligations.SpecWordsDecode : Prop :=
  decodeTableWord 32 0x00000000 = some (.hlt 0 0 0) ∧
  decodeTableWord 32 0x010001F4 = some (.load 0 500 0) ∧
  decodeTableWord 32 0x02000102 = some (.add 0 1 2) ∧
  decodeTableWord 32 0x05000102 = some (.div 0 1 2) ∧
  decodeTableWord 32 0x0603AABB = some (.jmp 3 170 187) ∧
  decodeTableWord 32 0x0D000100 = some (.gtq 0 1 0) ∧
  decodeTableWord 32 0x0F030000 = some (.jeq 3 0 0) ∧
  decodeTableWord 32 0x10050000 = some (.aloc 5 0 0) ∧
  decodeTableWord 32 0x121F0000 = some (.dec 31 0 0) ∧
  decodeTableWord 32 0x13010203 = none ∧
  instructionOfTableWord 32 0x13010203 = ⟨.illegal, 1, 2, 3⟩

/-- R70 and R71: the codes and mnemonics of the 19 operations, and the laws of the three mappings;
ILLEGAL has neither code nor mnemonic. -/
def Obligations.OpcodeMappingsAgree : Prop :=
  [Opcode.hlt, .load, .add, .sub, .mul, .div, .jmp, .jmpf, .jmpb, .eq, .neq, .gt, .lt, .gtq, .ltq,
    .jeq, .aloc, .inc, .dec].map Opcode.toCode? =
    (List.range 19).map (fun n => some (BitVec.ofNat 8 n)) ∧
  [Opcode.hlt, .load, .add, .sub, .mul, .div, .jmp, .jmpf, .jmpb, .eq, .neq, .gt, .lt, .gtq, .ltq,
    .jeq, .aloc, .inc, .dec].map Opcode.mnemonic? =
    ["HLT", "LOAD", "ADD", "SUB", "MUL", "DIV", "JMP", "JMPF", "JMPB", "EQ", "NEQ", "GT", "LT",
      "GTQ", "LTQ", "JEQ", "ALOC", "INC", "DEC"].map (fun m => some m.toList) ∧
  (∀ op c, Opcode.toCode? op = some c → Opcode.fromCode c = op) ∧
  (∀ b : Byte, b.toNat ≤ 18 → (Opcode.fromCode b).toCode? = some b) ∧
  (∀ b : Byte, 19 ≤ b.toNat → Opcode.fromCode b = .illegal) ∧
  (∀ op m, Opcode.mnemonic? op = some m → Opcode.fromMnemonic m = op) ∧
  (∀ m, (∀ op, Opcode.mnemonic? op ≠ some m) → Opcode.fromMnemonic m = .illegal) ∧
  Opcode.toCode? .illegal = none ∧ Opcode.mnemonic? .illegal = none

/-- R81: a word is operation `op` exactly when its bits under the mask are the code of `op`, and it is
ILLEGAL when no operation matches. -/
def Obligations.OpcodeByteSelectsOperation : Prop :=
  (∀ (w : Word) (op : Opcode) (c : Byte), op.toCode? = some c →
    ((decodeBinary (bytesOfWord w)).map Instruction.opcode = [op] ↔
      w &&& 0xFF000000#32 = BitVec.ofNat 32 (c.toNat * 2 ^ 24))) ∧
  (∀ w : Word,
    (∀ (op : Opcode) (c : Byte), op.toCode? = some c →
      w &&& 0xFF000000#32 ≠ BitVec.ofNat 32 (c.toNat * 2 ^ 24)) →
    (decodeBinary (bytesOfWord w)).map Instruction.opcode = [.illegal])

/-- 30_encoding.md section 2: the operand bytes are copied to the slots, zero-extended, and for LOAD
the last two are assembled big-endian. The byte positions of LOAD and the slots of ILLEGAL are the
spec's decisions D1, D2 and D20. -/
def Obligations.BytesFillSlots : Prop :=
  (∀ b0 b1 b2 b3 : Byte, b0 ≠ 1 →
    (decodeGroup b0 b1 b2 b3).opcode = Opcode.fromCode b0 ∧
    (decodeGroup b0 b1 b2 b3).a.toInt = (b1.toNat : Int) ∧
    (decodeGroup b0 b1 b2 b3).b.toInt = (b2.toNat : Int) ∧
    (decodeGroup b0 b1 b2 b3).c.toInt = (b3.toNat : Int)) ∧
  (∀ b1 b2 b3 : Byte,
    (decodeGroup 1 b1 b2 b3).opcode = .load ∧
    (decodeGroup 1 b1 b2 b3).a.toInt = (b1.toNat : Int) ∧
    (decodeGroup 1 b1 b2 b3).b.toInt = (b2.toNat : Int) * 256 + b3.toNat ∧
    (decodeGroup 1 b1 b2 b3).c.toInt = 0)

/-- R78: one group at a time, missing bytes of the last group taken as 0. -/
def Obligations.ShortGroupIsZeroPadded : Prop :=
  decodeBinary [] = [] ∧
  (∀ (b0 : Byte) (rest : List Byte),
    decodeBinary (b0 :: rest) =
      decodeGroup b0 (rest.getD 0 0) (rest.getD 1 0) (rest.getD 2 0) :: decodeBinary (rest.drop 3)) ∧
  decodeBinary [0x11] = decodeBinary [0x11, 0, 0, 0] ∧
  decodeBinary [0x11] = [⟨.inc, 0, 0, 0⟩]

/-- R79: the number of Instructions of a stream, the bytes each is made of, and the store that holds
them. -/
def Obligations.StreamDecodesGroupByGroup : Prop :=
  (∀ bytes : List Byte,
    (decodeBinary bytes).length = (bytes.length + 3) / 4 ∧
    ∀ k, k < (bytes.length + 3) / 4 →
      (decodeBinary bytes)[k]? = some (decodeGroup (bytes.getD (4 * k) 0) (bytes.getD (4 * k + 1) 0)
        (bytes.getD (4 * k + 2) 0) (bytes.getD (4 * k + 3) 0))) ∧
  decodeBinary [] = [] ∧
  (∀ (bytes : List Byte) (s t : State), loadBinary bytes s = .next t →
    t.program = decodeBinary bytes)

/-- Headline: every program of well-formed instructions, encoded to bytes and decoded, comes back
instruction for instruction, every slot at every value the encoding admits. -/
def Obligations.ProgramSurvivesEncodeThenDecode : Prop :=
  ∀ program : List Instr, (∀ i ∈ program, i.wellFormed = true) →
    (encodeProgram program).length = 4 * program.length ∧
    (decodeBinary (encodeProgram program)).map Instruction.instr? = program.map some

/-- The encoder is exactly the decoder's inverse: a group with a legal opcode byte is re-encoded to
itself and no other group is encoded; whatever is encoded decodes to the Instruction it came from. -/
def Obligations.GroupSurvivesDecodeThenEncode : Prop :=
  (∀ b0 b1 b2 b3 : Byte, b0.toNat ≤ 18 →
    encodeInstruction? (decodeGroup b0 b1 b2 b3) = some [b0, b1, b2, b3]) ∧
  (∀ b0 b1 b2 b3 : Byte, 19 ≤ b0.toNat → encodeInstruction? (decodeGroup b0 b1 b2 b3) = none) ∧
  (∀ (I : Instruction) (bytes : List Byte), encodeInstruction? I = some bytes →
    decodeBinary bytes = [I])

/-! ## Text -/

/-- 30_encoding.md section 3, the result of decoding a line from the classes of its tokens. What makes
a line malformed is the spec's decision D17. -/
def Obligations.LineDecodesByItsTokens : Prop :=
  ∀ (line : List Char) (ts : List Token), ts = (splitTokens line).map classify →
    (∀ m, ts.filterMap Token.mnemonic? = [m] → Opcode.fromMnemonic m ≠ .illegal →
      Token.malformed ∉ ts → (ts.filterMap Token.operand?).length ≤ 3 →
      decodeLine line = ⟨Opcode.fromMnemonic m, (ts.filterMap Token.operand?).getD 0 0,
        (ts.filterMap Token.operand?).getD 1 0, (ts.filterMap Token.operand?).getD 2 0⟩) ∧
    ((¬ ∃ m, ts.filterMap Token.mnemonic? = [m] ∧ Opcode.fromMnemonic m ≠ .illegal) ∨
      Token.malformed ∈ ts ∨ 3 < (ts.filterMap Token.operand?).length →
      decodeLine line = ⟨.illegal, 0, 0, 0⟩)

/-- 30_encoding.md section 3: a directive or label token standing in a line leaves no trace in the
Instruction; the first-character tests come first. -/
def Obligations.DirectiveTokensAreInert : Prop :=
  ∀ before token after : List Char, token ≠ [] → (∀ ch ∈ token, isSpace ch = false) →
    (token.head? = some '.' ∨ token.head? = some '@' ∨
      (token.getLast? = some ':' ∧ token.head? ≠ some '$' ∧ token.head? ≠ some '#')) →
    decodeLine (before ++ ' ' :: token ++ ' ' :: after) = decodeLine (before ++ ' ' :: after)

/-- 30_encoding.md section 3: register and immediate tokens with any digits, leading zeros included,
and the ranges beyond which a token is malformed (the spec's decision D17). -/
def Obligations.NumberTokensAreDecimal : Prop :=
  ∀ (ds : List (Fin 10)) (n : Nat) (text : List Char), ds ≠ [] →
    n = ds.foldl (fun n d => n * 10 + d.val) 0 → text = ds.map (fun d => Char.ofNat (48 + d.val)) →
    (n < 2 ^ 31 → classify ('$' :: text) = .register (BitVec.ofNat 32 n)) ∧
    (n < 2 ^ 31 → classify ('#' :: text) = .immediate (BitVec.ofNat 32 n)) ∧
    (n ≤ 2 ^ 31 → classify ('#' :: '-' :: text) = .immediate (BitVec.ofInt 32 (-n))) ∧
    (2 ^ 31 ≤ n → classify ('$' :: text) = .malformed ∧ classify ('#' :: text) = .malformed) ∧
    (2 ^ 31 < n → classify ('#' :: '-' :: text) = .malformed) ∧
    classify ('$' :: '-' :: text) = .malformed ∧ classify ('#' :: '+' :: text) = .malformed

/-- 30_encoding.md section 3: a text is cut at each line feed, every line gives one Instruction, and a
last fragment is a line if it is not empty (the spec's decision D26). -/
def Obligations.TextDecodesLineByLine : Prop :=
  decodeText [] = [] ∧
  (∀ line rest : List Char, (∀ ch ∈ line, ch ≠ '\n') →
    decodeText (line ++ '\n' :: rest) = decodeLine line :: decodeText rest) ∧
  (∀ line : List Char, line ≠ [] → (∀ ch ∈ line, ch ≠ '\n') → decodeText line = [decodeLine line])

/-- Headline: the line of every instruction, with any three slot values, decodes to that instruction,
so the textual decoder drops nothing and reaches every legal Instruction. The writer `lineOf` is the
model's own (log 11). -/
def Obligations.LineOfInstructionDecodesBack : Prop :=
  ∀ i : Instr, decodeLine (lineOf i) = i.toInstruction

/-! ## The step -/

/-- A step of a Running engine runs the instruction at the pc with the pc already advanced: the one in
the store, the one whose bytes stand in the stream the store was decoded from, or the one of a
table word placed there. The third clause is about `State.withFetchWord`, which is the model's own: how
it fills gaps with ILLEGAL and sets Running is the model's choice (log 4), and the numbering of the
word's bits is read from R9 (log 8). -/
def Obligations.StepRunsDecodedInstruction : Prop :=
  (∀ (s : State) (i : Instr), s.fetches i → step s = exec i (s.setPc (s.pc + 1))) ∧
  (∀ (s : State) (i : Instr) (before after : List Byte), s.run = .running → i.wellFormed = true →
    before.length = 4 * s.pc → s.program = decodeBinary (before ++ encode i ++ after) →
    step s = exec i (s.setPc (s.pc + 1))) ∧
  (∀ (s : State) (nbits w : Nat) (i : Instr), decodeTableWord nbits w = some i →
    step (s.withFetchWord nbits w) = exec i ((s.withFetchWord nbits w).setPc (s.pc + 1)))

/-- R210: executing ILLEGAL, from an unrecognised byte or a line with no recognised mnemonic, halts
with an outcome of its own; decoding it is no error. -/
def Obligations.IllegalOpcodeHalts : Prop :=
  (∀ (s : State) (I : Instruction), s.run = .running → s.program[s.pc]? = some I →
    I.opcode = .illegal →
    ∃ t, step s = .next t ∧ SameData s t ∧ t.pc = s.pc + 1 ∧ t.runState = .halted ∧
      t.outcome = some .haltedOnIllegalOpcode) ∧
  (∀ b0 b1 b2 b3 : Byte, 19 ≤ b0.toNat → (decodeGroup b0 b1 b2 b3).opcode = .illegal) ∧
  (∀ line : List Char,
    (∀ m ∈ ((splitTokens line).map classify).filterMap Token.mnemonic?,
      Opcode.fromMnemonic m = .illegal) →
    (decodeLine line).opcode = .illegal) ∧
  HaltOutcome.haltedOnIllegalOpcode ≠ .haltedNormally ∧
  (∀ kind, HaltOutcome.haltedOnIllegalOpcode ≠ .haltedOnFault kind)

/-- 60_exceptions.md section 1: a fetch at the end of the program halts by exhaustion, an outcome of its
own (the spec's decision D12), with the pc unchanged, and it is no error. -/
def Obligations.ExhaustionHalts : Prop :=
  (∀ s : State, s.run = .running → s.pc = s.program.length →
    ∃ t, step s = .next t ∧ Halted .haltedOnExhaustion s t) ∧
  HaltOutcome.isError .haltedOnExhaustion = false ∧
  (∃ t, step (State.boot []) = .next t ∧ Halted .haltedOnExhaustion (State.boot []) t ∧ t.pc = 0)

/-- R208: a fetch past the end of the program is ProgramCounterOverflow with the pc at the bad
target, and only a jump can have put it there; a target at the end is exhaustion. -/
def Obligations.FetchPastEndFaults : Prop :=
  (∀ s : State, s.run = .running → s.program.length < s.pc →
    ∃ t, step s = .next t ∧ Raised .programCounterOverflow s t) ∧
  (∀ s t : State, s.run = .running → s.pc ≤ s.program.length → step s = .next t →
    t.program.length < t.pc → ∃ i, s.fetches i ∧ i.isJump = true ∧ t.run = .running) ∧
  (∀ s t : State, s.run = .running → s.pc = s.program.length → step s = .next t →
    t.outcome = some .haltedOnExhaustion) ∧
  (∃ t, hostRun 2 (State.boot [1, 0, 0, 5, 6, 0, 0, 0]) = .next (t, .continues) ∧ t.pc = 5) ∧
  (∃ t, hostRun 3 (State.boot [1, 0, 0, 5, 6, 0, 0, 0]) =
    .next (t, .halted (.haltedOnFault .programCounterOverflow)) ∧ t.pc = 5)

/-- 40_engine_step.md section 4: a step of a Halted engine changes nothing and reports the recorded
outcome again, whatever the host has appended (the spec's decision D13). -/
def Obligations.HaltedEngineStays : Prop :=
  (∀ (s : State) (o : HaltOutcome), s.run = .halted o →
    step s = .next s ∧ hostStep s = .next (s, .halted o)) ∧
  (∀ (s t : State) (I : Instruction) (o : HaltOutcome), s.run = .halted o →
    hostAppend I s = .next t → hostStep t = .next (t, .halted o))

/-- 40_engine_step.md, a step is total: it always has a successor state, but for an ALOC that would
pass a finite HEAP_MAX, which the model refuses (log 6); with no bound there is no exception. -/
def Obligations.StepIsTotal : Prop :=
  (∀ s : State, s.capacity.heapMax = none → ∃ t, step s = .next t) ∧
  (∀ s : State, (∃ t, step s = .next t) ∨
    (step s = .refused .heapPastMax ∧ ∃ (ra b c : Slot) (d : Fin 32) (bound : Nat),
      s.fetches (.aloc ra b c) ∧ ra.names d ∧ s.capacity.heapMax = some bound ∧
      (bound : Int) < s.heap.len + (s.x d).toInt))

/-- R205: every register slot is checked before the body, a bad one faults with nothing else written,
and unused slots and immediates cannot cause it. -/
def Obligations.RegisterSlotsAreChecked : Prop :=
  (∀ (i : Instr) (s : State) (v : Slot), v ∈ registerSlots i → v.namesNone →
    ∃ t, exec i s = .next t ∧ Raised .registerOutOfRange s t) ∧
  (∀ (i : Instr) (s t : State), s.run = .running → (∀ v ∈ registerSlots i, ¬ v.namesNone) →
    exec i s = .next t → t.outcome ≠ some (.haltedOnFault .registerOutOfRange)) ∧
  (∃ t, step (State.boot [0x02, 0x00, 0x01, 0x20]) = .next t ∧
    t.outcome = some (.haltedOnFault .registerOutOfRange) ∧ t.pc = 1 ∧ ∀ j, t.x j = 0)

/-- 40_engine_step.md R116 and 60_exceptions.md R204: a step that halts writes at most the pc, by the
fetch, and the run state. That the pc stays advanced is the spec's decision D8. -/
def Obligations.HaltingStepWritesNothingElse : Prop :=
  ∀ s t : State, s.run = .running → step s = .next t → t.runState = .halted →
    SameData s t ∧ t.pc = if s.pc < s.program.length then s.pc + 1 else s.pc

/-- 60_exceptions.md section 1: what caused a halt, for every outcome and every fault kind, is found in
the step that reports it. -/
def Obligations.OutcomesHaveTheirCauses : Prop :=
  ∀ (s t : State), s.run = .running → step s = .next t →
    (t.outcome = some .haltedNormally → ∃ i, s.fetches i ∧ i.isHlt) ∧
    (t.outcome = some .haltedOnIllegalOpcode →
      ∃ I, s.program[s.pc]? = some I ∧ I.opcode = .illegal) ∧
    (t.outcome = some .haltedOnExhaustion → s.pc = s.program.length) ∧
    (t.outcome = some (.haltedOnFault .programCounterOverflow) → s.program.length < s.pc) ∧
    (t.outcome = some (.haltedOnFault .registerOutOfRange) →
      ∃ i v, s.fetches i ∧ v ∈ registerSlots i ∧ v.namesNone) ∧
    (t.outcome = some (.haltedOnFault .divisionByZero) →
      ∃ (ra rb rd : Slot) (j : Fin 32), s.fetches (.div ra rb rd) ∧ rb.names j ∧
        (s.x j).toInt = 0) ∧
    (t.outcome = some (.haltedOnFault .programCounterUnderflow) →
      ∃ i, s.fetches i ∧ i.isJump = true) ∧
    (t.outcome = some (.haltedOnFault .negativeAllocation) →
      ∃ (ra b c : Slot) (j : Fin 32), s.fetches (.aloc ra b c) ∧ ra.names j ∧ (s.x j).toInt < 0)

/-- 10_state.md section 3: after every instruction that is not a jump the pc is k + 1, whether the
instruction halted the engine or not (the spec's decision D8). -/
def Obligations.NonJumpsAdvanceThePc : Prop :=
  ∀ (s t : State) (i : Instr), s.fetches i → i.isJump = false → step s = .next t →
    t.pc = s.pc + 1

/-- 30_encoding.md section 2: the slots an operation does not use are never looked at (the spec's
decision D16). -/
def Obligations.UnusedSlotsAreIgnored : Prop :=
  ∀ (s : State) (a b c a' b' c' : Slot),
    exec (.hlt a b c) s = exec (.hlt a' b' c') s ∧
    exec (.load a b c) s = exec (.load a b c') s ∧
    exec (.jmp a b c) s = exec (.jmp a b' c') s ∧
    exec (.jmpf a b c) s = exec (.jmpf a b' c') s ∧
    exec (.jmpb a b c) s = exec (.jmpb a b' c') s ∧
    exec (.jeq a b c) s = exec (.jeq a b' c') s ∧
    exec (.eq a b c) s = exec (.eq a b c') s ∧
    exec (.neq a b c) s = exec (.neq a b c') s ∧
    exec (.gt a b c) s = exec (.gt a b c') s ∧
    exec (.lt a b c) s = exec (.lt a b c') s ∧
    exec (.gtq a b c) s = exec (.gtq a b c') s ∧
    exec (.ltq a b c) s = exec (.ltq a b c') s ∧
    exec (.aloc a b c) s = exec (.aloc a b' c') s ∧
    exec (.inc a b c) s = exec (.inc a b' c') s ∧
    exec (.dec a b c) s = exec (.dec a b' c') s

/-! ## HLT and LOAD -/

/-- R117: HLT, its encoding, its text, its effect and its frame; it cannot fault. -/
def Obligations.HltHaltsNormally : Prop :=
  (∀ b1 b2 b3 : Byte, ∃ a b c : Slot, (decodeGroup 0x00 b1 b2 b3).instr? = some (.hlt a b c)) ∧
  decodeLine "HLT".toList = ⟨.hlt, 0, 0, 0⟩ ∧
  (∀ (a b c : Slot) (s : State),
    ∃ t, exec (.hlt a b c) s = .next t ∧ Halted .haltedNormally s t) ∧
  (∃ t, step (State.boot [0, 0, 0, 0]) = .next t ∧ t.outcome = some .haltedNormally ∧ t.pc = 1 ∧
    ∀ j, t.x j = 0)

/-- 41_load.md: LOAD, its encoding (where its bytes stand and that its slot holds the integer are the
spec's decisions D1 and D2), its text, the register it writes, its frame, and its one fault. -/
def Obligations.LoadWritesItsImmediate : Prop :=
  (∀ b1 b2 b3 : Byte, ∃ rd imm : Slot, (decodeGroup 0x01 b1 b2 b3).instr? = some (.load rd imm 0) ∧
    rd.toInt = (b1.toNat : Int) ∧ imm.toInt = (b2.toNat : Int) * 256 + b3.toNat) ∧
  (∀ rd imm : Slot, 0 ≤ rd.toInt →
    decodeLine ("LOAD ".toList ++ registerText rd ++ ' ' :: immediateText imm) =
      ⟨.load, rd, imm, 0⟩) ∧
  (∀ (rd imm c : Slot) (d : Fin 32) (s : State), rd.names d →
    ∃ t, exec (.load rd imm c) s = .next t ∧ (t.x d).toInt = imm.toInt ∧ OnlyRegWritten d s t) ∧
  (∀ (rd imm c : Slot) (s : State), rd.namesNone →
    ∃ t, exec (.load rd imm c) s = .next t ∧ Raised .registerOutOfRange s t) ∧
  (∀ r : Fin 32, ∃ t, step (State.boot [0x01, BitVec.ofNat 8 r.val, 0x04, 0xD2]) = .next t ∧
    (t.x r).toInt = 1234 ∧ t.pc = 1)

/-! ## Arithmetic -/

/-- 42_arithmetic.md section 2: ADD, SUB and MUL complete, write the exact result wrapped to 32 bits
(the spec's decision D4), and write nothing else; sources and destination may coincide. -/
def Obligations.AddSubMulWriteWrappedResult : Prop :=
  ∀ (ra rb rd : Slot) (i j k : Fin 32) (s : State), ra.names i → rb.names j → rd.names k →
    (∃ t, exec (.add ra rb rd) s = .next t ∧ OnlyRegWritten k s t ∧
      (t.x k).wraps ((s.x i).toInt + (s.x j).toInt)) ∧
    (∃ t, exec (.sub ra rb rd) s = .next t ∧ OnlyRegWritten k s t ∧
      (t.x k).wraps ((s.x i).toInt - (s.x j).toInt)) ∧
    (∃ t, exec (.mul ra rb rd) s = .next t ∧ OnlyRegWritten k s t ∧
      (t.x k).wraps ((s.x i).toInt * (s.x j).toInt))

/-- 42_arithmetic.md section 3: INC and DEC complete, write the wrapped result (decision D4), and write
nothing else. -/
def Obligations.IncDecWriteWrappedResult : Prop :=
  ∀ (ra b c : Slot) (i : Fin 32) (s : State), ra.names i →
    (∃ t, exec (.inc ra b c) s = .next t ∧ OnlyRegWritten i s t ∧
      (t.x i).wraps ((s.x i).toInt + 1)) ∧
    (∃ t, exec (.dec ra b c) s = .next t ∧ OnlyRegWritten i s t ∧
      (t.x i).wraps ((s.x i).toInt - 1))

/-- 42_arithmetic.md sections 1 and 2: DIV with a non-zero divisor completes; quotient and remainder
satisfy a = b * q + r with |r| < |b| and r of the dividend's sign (truncation, the spec's decision
D5), the remainder being stored as its 32 bits (D6); -2^31 / -1 wraps (D5). -/
def Obligations.DivWritesQuotientAndRemainder : Prop :=
  ∀ (ra rb rd : Slot) (i j k : Fin 32) (s : State), ra.names i → rb.names j → rd.names k →
    (s.x j).toInt ≠ 0 →
    ∃ t, exec (.div ra rb rd) s = .next t ∧ OnlyRegAndRemainderWritten k s t ∧
      ((s.x i).toInt = -2 ^ 31 ∧ (s.x j).toInt = -1 →
        (t.x k).toInt = -2 ^ 31 ∧ t.remainder = 0) ∧
      (¬((s.x i).toInt = -2 ^ 31 ∧ (s.x j).toInt = -1) →
        (s.x i).toInt = (s.x j).toInt * (t.x k).toInt + t.remainder.toInt ∧
        |t.remainder.toInt| < |(s.x j).toInt| ∧
        (t.remainder.toInt ≠ 0 → (0 < t.remainder.toInt ↔ 0 < (s.x i).toInt)))

/-- R206: DIV by zero faults with neither register nor remainder written, whatever the dividend, and
no other instruction can cause it. -/
def Obligations.DivisionByZeroFaults : Prop :=
  (∀ (ra rb rd : Slot) (i j k : Fin 32) (s : State), ra.names i → rb.names j → rd.names k →
    (s.x j).toInt = 0 → ∃ t, exec (.div ra rb rd) s = .next t ∧ Raised .divisionByZero s t) ∧
  (∀ (i : Instr) (s t : State), s.run = .running → exec i s = .next t →
    t.outcome = some (.haltedOnFault .divisionByZero) → i.isDiv) ∧
  (∃ t, step (State.boot [0x05, 0x00, 0x01, 0x02]) = .next t ∧
    t.outcome = some (.haltedOnFault .divisionByZero) ∧ t.pc = 1)

/-! ## Control transfer -/

/-- 43_jumps.md section 1: JMP, JMPF, JMPB and a taken JEQ complete and write the pc alone, JMPF and
JMPB over the integers (the spec's decision D10), with no test against the end of the program (D11);
a JEQ not taken changes nothing. -/
def Obligations.JumpsWriteThePc : Prop :=
  ∀ (ra b c : Slot) (i : Fin 32) (s : State), ra.names i →
    (0 ≤ (s.x i).toInt →
      ∃ t, exec (.jmp ra b c) s = .next t ∧ (t.pc : Int) = (s.x i).toInt ∧ OnlyPcWritten s t) ∧
    (0 ≤ s.pc + (s.x i).toInt →
      ∃ t, exec (.jmpf ra b c) s = .next t ∧ (t.pc : Int) = s.pc + (s.x i).toInt ∧
        OnlyPcWritten s t) ∧
    (0 ≤ s.pc - (s.x i).toInt →
      ∃ t, exec (.jmpb ra b c) s = .next t ∧ (t.pc : Int) = s.pc - (s.x i).toInt ∧
        OnlyPcWritten s t) ∧
    (s.equal = true → 0 ≤ (s.x i).toInt →
      ∃ t, exec (.jeq ra b c) s = .next t ∧ (t.pc : Int) = (s.x i).toInt ∧ OnlyPcWritten s t) ∧
    (s.equal = false → exec (.jeq ra b c) s = .next s)

/-- 60_exceptions.md section 1: a target below 0 faults in the jump's own step with the pc left at
k + 1, for JMP, JMPF, JMPB and a taken JEQ (for all but a JMPB of a positive distance the spec's
decisions D9 and D10). -/
def Obligations.JumpBelowZeroFaults : Prop :=
  (∀ (ra b c : Slot) (i : Fin 32) (s : State), ra.names i →
    ((s.x i).toInt < 0 →
      ∃ t, exec (.jmp ra b c) s = .next t ∧ Raised .programCounterUnderflow s t) ∧
    (s.pc + (s.x i).toInt < 0 →
      ∃ t, exec (.jmpf ra b c) s = .next t ∧ Raised .programCounterUnderflow s t) ∧
    ((s.pc : Int) < (s.x i).toInt →
      ∃ t, exec (.jmpb ra b c) s = .next t ∧ Raised .programCounterUnderflow s t) ∧
    (s.equal = true → (s.x i).toInt < 0 →
      ∃ t, exec (.jeq ra b c) s = .next t ∧ Raised .programCounterUnderflow s t)) ∧
  (∃ t, hostRun 2 (State.boot [0x01, 0x00, 0x00, 0x03, 0x08, 0x00, 0x00, 0x00]) =
    .next (t, .halted (.haltedOnFault .programCounterUnderflow)) ∧ t.pc = 2 ∧ (t.x 0).toInt = 3)

/-! ## Comparisons -/

/-- 44_compare.md sections 1 and 2: each comparison completes and writes the flag alone, with the
truth of its own relation of the two registers, signed (the spec's decision D23). -/
def Obligations.ComparisonsWriteTheFlag : Prop :=
  ∀ (ra rb c : Slot) (i j : Fin 32) (s : State), ra.names i → rb.names j →
    (∃ t, exec (.eq ra rb c) s = .next t ∧ OnlyFlagWritten s t ∧
      (t.equal = true ↔ (s.x i).toInt = (s.x j).toInt)) ∧
    (∃ t, exec (.neq ra rb c) s = .next t ∧ OnlyFlagWritten s t ∧
      (t.equal = true ↔ (s.x i).toInt ≠ (s.x j).toInt)) ∧
    (∃ t, exec (.gt ra rb c) s = .next t ∧ OnlyFlagWritten s t ∧
      (t.equal = true ↔ (s.x i).toInt > (s.x j).toInt)) ∧
    (∃ t, exec (.lt ra rb c) s = .next t ∧ OnlyFlagWritten s t ∧
      (t.equal = true ↔ (s.x i).toInt < (s.x j).toInt)) ∧
    (∃ t, exec (.gtq ra rb c) s = .next t ∧ OnlyFlagWritten s t ∧
      (t.equal = true ↔ (s.x i).toInt ≥ (s.x j).toInt)) ∧
    (∃ t, exec (.ltq ra rb c) s = .next t ∧ OnlyFlagWritten s t ∧
      (t.equal = true ↔ (s.x i).toInt ≤ (s.x j).toInt))

/-- R181 and R182: EQ and NEQ, their encodings and texts, the comparison of all 32 bits, the fault that
leaves the flag as it was, and the source's example. -/
def Obligations.EqAndNeqCompareAllBits : Prop :=
  (∀ b1 b2 b3 : Byte, ∃ ra rb c : Slot,
    (decodeGroup 0x09 b1 b2 b3).instr? = some (.eq ra rb c) ∧
    (decodeGroup 0x0A b1 b2 b3).instr? = some (.neq ra rb c) ∧
    ra.toInt = (b1.toNat : Int) ∧ rb.toInt = (b2.toNat : Int)) ∧
  (∀ ra rb : Slot, 0 ≤ ra.toInt → 0 ≤ rb.toInt →
    decodeLine ("EQ ".toList ++ registerText ra ++ ' ' :: registerText rb) = ⟨.eq, ra, rb, 0⟩ ∧
    decodeLine ("NEQ ".toList ++ registerText ra ++ ' ' :: registerText rb) = ⟨.neq, ra, rb, 0⟩) ∧
  (∀ (ra rb c : Slot) (i j : Fin 32) (s : State), ra.names i → rb.names j →
    (∃ t, exec (.eq ra rb c) s = .next t ∧ OnlyFlagWritten s t ∧
      (t.equal = true ↔ s.x i = s.x j)) ∧
    (∃ t, exec (.neq ra rb c) s = .next t ∧ OnlyFlagWritten s t ∧
      (t.equal = true ↔ s.x i ≠ s.x j))) ∧
  (∀ (ra rb c : Slot) (s : State), ra.namesNone ∨ rb.namesNone →
    (∃ t, exec (.eq ra rb c) s = .next t ∧ Raised .registerOutOfRange s t) ∧
    (∃ t, exec (.neq ra rb c) s = .next t ∧ Raised .registerOutOfRange s t)) ∧
  (∃ t u, hostRun 3 (State.boot [1, 0, 0, 10, 1, 1, 0, 10, 9, 0, 1, 0, 1, 1, 0, 20, 9, 0, 1, 0]) =
      .next (t, .continues) ∧ t.equal = true ∧
    hostRun 5 (State.boot [1, 0, 0, 10, 1, 1, 0, 10, 9, 0, 1, 0, 1, 1, 0, 20, 9, 0, 1, 0]) =
      .next (u, .continues) ∧ u.equal = false) ∧
  (∃ t u, hostRun 3 (State.boot [1, 0, 0, 10, 1, 1, 0, 20, 10, 0, 1, 0]) = .next (t, .continues) ∧
      t.equal = true ∧
    hostRun 3 (State.boot [1, 0, 0, 10, 1, 1, 0, 10, 10, 0, 1, 0]) = .next (u, .continues) ∧
      u.equal = false)

/-- 44_compare.md section 3: on the same operands exactly one of EQ, GT and LT sets true, NEQ is the
negation of EQ, GTQ of LT and LTQ of GT. -/
def Obligations.ComparisonsAreComplementary : Prop :=
  ∀ (ra rb c : Slot) (i j : Fin 32) (s : State), ra.names i → rb.names j →
    ∃ e n g l ge le : State,
      exec (.eq ra rb c) s = .next e ∧ exec (.neq ra rb c) s = .next n ∧
      exec (.gt ra rb c) s = .next g ∧ exec (.lt ra rb c) s = .next l ∧
      exec (.gtq ra rb c) s = .next ge ∧ exec (.ltq ra rb c) s = .next le ∧
      n.equal = !e.equal ∧ ge.equal = !l.equal ∧ le.equal = !g.equal ∧
      [e.equal, g.equal, l.equal].count true = 1

/-! ## The heap -/

/-- R195: ALOC, its encoding and text, the growth where HEAP_MAX admits it, its frame, its two
faults. -/
def Obligations.AlocGrowsTheHeap : Prop :=
  (∀ b1 b2 b3 : Byte, ∃ ra b c : Slot, (decodeGroup 0x10 b1 b2 b3).instr? = some (.aloc ra b c) ∧
    ra.toInt = (b1.toNat : Int)) ∧
  (∀ ra : Slot, 0 ≤ ra.toInt → decodeLine ("ALOC ".toList ++ registerText ra) = ⟨.aloc, ra, 0, 0⟩) ∧
  (∀ (ra b c : Slot) (i : Fin 32) (s : State), ra.names i → s.heap.wf = true →
    0 ≤ (s.x i).toInt →
    (∀ bound : Nat, s.capacity.heapMax = some bound → s.heap.len + (s.x i).toInt ≤ bound) →
    ∃ t, exec (.aloc ra b c) s = .next t ∧ OnlyHeapWritten s t ∧
      (t.heap.len : Int) = s.heap.len + (s.x i).toInt ∧
      (∀ a, a < s.heap.len → t.heap.byte? a = s.heap.byte? a) ∧
      (∀ a, s.heap.len ≤ a → a < t.heap.len → t.heap.byte? a = some 0) ∧
      (∀ a, t.heap.len ≤ a → t.heap.byte? a = none) ∧
      ((s.x i).toInt = 0 → t = s)) ∧
  (∀ (ra b c : Slot) (i : Fin 32) (s : State), ra.names i → (s.x i).toInt < 0 →
    ∃ t, exec (.aloc ra b c) s = .next t ∧ Raised .negativeAllocation s t) ∧
  (∀ (ra b c : Slot) (s : State), ra.namesNone →
    ∃ t, exec (.aloc ra b c) s = .next t ∧ Raised .registerOutOfRange s t) ∧
  (∃ t, hostRun 3 (State.boot [1, 0, 0, 16, 16, 0, 0, 0, 16, 0, 0, 0]) = .next (t, .continues) ∧
    t.heap.len = 32 ∧ (t.x 0).toInt = 16)

/-- 20_memory.md section 2: a growth past a finite HEAP_MAX has no meaning and is refused (the spec's
decision D19, log 6). -/
def Obligations.AlocPastHeapMaxIsRefused : Prop :=
  ∀ (ra b c : Slot) (i : Fin 32) (s : State) (bound : Nat), ra.names i → 0 ≤ (s.x i).toInt →
    s.capacity.heapMax = some bound → (bound : Int) < s.heap.len + (s.x i).toInt →
    exec (.aloc ra b c) s = .refused .heapPastMax

/-- R209: ALOC of a negative amount faults with the heap unchanged, and nothing else causes it. -/
def Obligations.NegativeAllocationFaults : Prop :=
  (∀ (ra b c : Slot) (i : Fin 32) (s : State), ra.names i → (s.x i).toInt < 0 →
    ∃ t, exec (.aloc ra b c) s = .next t ∧ Raised .negativeAllocation s t) ∧
  (∀ (i : Instr) (s t : State), s.run = .running → exec i s = .next t →
    t.outcome = some (.haltedOnFault .negativeAllocation) → i.isAloc) ∧
  (∃ t u, hostRun 1 (State.boot [0x12, 0, 0, 0, 0x10, 0, 0, 0]) = .next (t, .continues) ∧
      (t.x 0).toInt = -1 ∧
    hostRun 2 (State.boot [0x12, 0, 0, 0, 0x10, 0, 0, 0]) =
      .next (u, .halted (.haltedOnFault .negativeAllocation)) ∧ u.pc = 2 ∧ u.heap.len = 0)

/-- 20_memory.md section 2, the primitives no instruction calls (the spec's decision D25): in bounds a
write is read back, leaves every other byte, the length and every other piece of state, and keeps
the canonical form; out of bounds both stop by the name `heapRangeAbsent` (log 13). -/
def Obligations.HeapReadAndWriteAgree : Prop :=
  (∀ (addr : Nat) (bytes : List Byte) (s : State), s.heap.wf = true → 1 ≤ bytes.length →
    addr + bytes.length ≤ s.heap.len →
    ∃ t, memWrite addr bytes s = .next t ∧ memRead addr bytes.length t = .next bytes ∧
      (∀ a, a < addr ∨ addr + bytes.length ≤ a → t.heap.byte? a = s.heap.byte? a) ∧
      t.heap.wf = true ∧ t.heap.len = s.heap.len ∧ { t with heap := s.heap } = s) ∧
  (∀ (addr n : Nat) (s : State), 1 ≤ n → addr + n ≤ s.heap.len →
    ∃ bytes, memRead addr n s = .next bytes ∧
      bytes.map some = (List.range n).map fun k => s.heap.byte? (addr + k)) ∧
  (∀ (addr n : Nat) (s : State), s.heap.len < addr + n →
    memRead addr n s = .fault .heapRangeAbsent) ∧
  (∀ (addr : Nat) (bytes : List Byte) (s : State), s.heap.len < addr + bytes.length →
    memWrite addr bytes s = .fault .heapRangeAbsent)

/-! ## The whole machine -/

/-- 10_state.md section 4: the flag is written by the six comparisons and by nothing else, never by a
step that halts; it is read by JEQ and by nothing else. -/
def Obligations.FlagIsTheComparisonsAndJeqs : Prop :=
  (∀ s t : State, step s = .next t → t.equal ≠ s.equal →
    t.run = .running ∧ ∃ i, s.fetches i ∧ i.isComparison = true) ∧
  (∀ (i : Instr) (s t : State) (v : Bool), ¬ i.isJeq → exec i s = .next t →
    ∃ t', exec i (s.setEqual v) = .next t' ∧ t'.setEqual v = t.setEqual v ∧
      (i.isComparison = true → (∀ a ∈ registerSlots i, ¬ a.namesNone) → t' = t))

/-- 10_state.md section 5: only a DIV that does not fault writes the remainder register, and no
instruction reads it: two states that differ in it alone step to states that differ in it alone. -/
def Obligations.RemainderIsWrittenByDivAndReadByNone : Prop :=
  (∀ s t : State, step s = .next t → t.remainder ≠ s.remainder →
    t.run = .running ∧ ∃ i, s.fetches i ∧ i.isDiv) ∧
  (∀ (s t : State) (v : Word), step s = .next t →
    ∃ t', step (s.setRemainder v) = .next t' ∧ t'.setRemainder v = t.setRemainder v)

/-- R35: the program store is changed by the host alone, by Reset and Append, keeps PROGRAM_MAX, is
read as data by no instruction, and is what the listing shows. -/
def Obligations.ProgramStoreIsTheHosts : Prop :=
  (∀ s t : State, step s = .next t → t.program = s.program ∧ t.capacity = s.capacity) ∧
  (∀ (P : List Instruction) (s t : State), hostReset P s = .next t →
    t.program = P ∧ t.capacity = s.capacity ∧ P.length ≤ s.capacity.programMax) ∧
  (∀ (I : Instruction) (s t : State), hostAppend I s = .next t →
    t.program = s.program ++ [I] ∧ t.capacity = s.capacity ∧
      t.program.length ≤ s.capacity.programMax ∧
      ∀ (k : Nat) (J : Instruction), s.program[k]? = some J → t.program[k]? = some J) ∧
  (∀ (i : Instr) (s t : State) (P : List Instruction), exec i s = .next t →
    exec i { s with program := P } = .next { t with program := P }) ∧
  (∀ s : State, readListing s = s.program)

/-- R52: the heap's length only increases, bytes already there keep their values, and the bytes a step
adds are 0; only ALOC adds any. -/
def Obligations.HeapOnlyGrows : Prop :=
  ∀ s t : State, s.heap.wf = true → step s = .next t →
    s.heap.len ≤ t.heap.len ∧
    (∀ a, a < s.heap.len → t.heap.byte? a = s.heap.byte? a) ∧
    (∀ a, s.heap.len ≤ a → a < t.heap.len → t.heap.byte? a = some 0) ∧
    (t.heap ≠ s.heap → ∃ i, s.fetches i ∧ i.isAloc)

/-- Headline: every step keeps the invariant, from every state that meets it: the program store keeps
PROGRAM_MAX, the pc fits 32 unsigned bits (10_state.md R27: it never wraps), the heap is in canonical
form, all of its bytes are 0 (20_memory.md R56), and its length keeps HEAP_MAX. -/
def Obligations.StepKeepsInvariant : Prop :=
  ∀ s t : State, s.Inv → step s = .next t → t.Inv

/-- The state after reset meets the invariant. -/
def Obligations.ResetMeetsInvariant : Prop := State.reset.Inv

/-- Reset gives a state that meets the invariant whatever the state before it, where the heap bound
admits the empty heap as every bound does; Append keeps the invariant. -/
def Obligations.HostOperationsKeepInvariant : Prop :=
  (∀ (P : List Instruction) (s t : State), hostReset P s = .next t → t.Inv) ∧
  (∀ (bytes : List Byte) (s t : State), loadBinary bytes s = .next t → t.Inv) ∧
  (∀ (text : List Char) (s t : State), loadText text s = .next t → t.Inv) ∧
  (∀ (I : Instruction) (s t : State), s.Inv → hostAppend I s = .next t → t.Inv)

/-- 60_exceptions.md section 4: after HLT, ILLEGAL and every fault but ProgramCounterOverflow the
instruction before the pc is the one the step fetched. -/
def Obligations.HaltingInstructionIsBeforeThePc : Prop :=
  ∀ (s t : State) (o : HaltOutcome), s.run = .running → step s = .next t → t.outcome = some o →
    o ≠ .haltedOnExhaustion → o ≠ .haltedOnFault .programCounterOverflow →
    ∃ I, s.program[s.pc]? = some I ∧ haltingInstruction? t = some I ∧
      t.program[t.pc - 1]? = some I

/-! ## Reset and the host -/

/-- R28: after reset the pc is 0 and execution starts at the first instruction of the store. -/
def Obligations.ResetStartsAtIndexZero : Prop :=
  State.reset.pc = 0 ∧ State.reset.runState = .running ∧
  (∀ (P : List Instruction) (s t : State), hostReset P s = .next t →
    t.pc = 0 ∧ t.runState = .running ∧
    ∀ i : Instr, P[0]? = some i.toInstruction → step t = exec i (t.setPc 1))

/-- 70_reset_and_hazards.md section 1: what Reset leaves, from any state. The zeros and the empty heap
are the spec's decision D14 (log 1); Running and pc = 0 are the source's. That a program beyond
PROGRAM_MAX is refused, as `programPastMax`, is the spec's decision D19 and 93 U7 (log 6). -/
def Obligations.ResetClearsEverything : Prop :=
  (∀ (P : List Instruction) (s : State), P.length ≤ s.capacity.programMax →
    ∃ t, hostReset P s = .next t ∧ (∀ j, t.x j = 0) ∧ t.pc = 0 ∧ t.equal = false ∧
      t.remainder = 0 ∧ t.heap.len = 0 ∧ (∀ a, t.heap.byte? a = none) ∧ t.program = P ∧
      t.runState = .running ∧ t.outcome = none ∧ t.capacity = s.capacity) ∧
  (∀ (P : List Instruction) (s : State), s.capacity.programMax < P.length →
    hostReset P s = .refused .programPastMax)

/-- 70_reset_and_hazards.md section 3 (the spec's decision D21): Append adds one Instruction at the end
and changes nothing else, is refused at PROGRAM_MAX, as `programPastMax` (decision D19 and 93 U7,
log 6), and is seen by the next fetch whose pc equals its index. -/
def Obligations.AppendIsSeenByTheNextFetch : Prop :=
  (∀ (I : Instruction) (s : State), s.program.length < s.capacity.programMax →
    ∃ t, hostAppend I s = .next t ∧ t.program = s.program ++ [I] ∧ (∀ j, t.x j = s.x j) ∧
      t.pc = s.pc ∧ t.equal = s.equal ∧ t.remainder = s.remainder ∧ SameHeap s t ∧
      t.run = s.run ∧ t.capacity = s.capacity ∧
      (s.run = .running → s.pc = s.program.length → ∀ i : Instr, I = i.toInstruction →
        step t = exec i (t.setPc (s.pc + 1)))) ∧
  (∀ (I : Instruction) (s : State), s.capacity.programMax ≤ s.program.length →
    hostAppend I s = .refused .programPastMax)

/-- 40_engine_step.md section 4: a run is the steps up to the first Halted state; once it has halted a
larger bound changes nothing; on a Halted engine it returns at once. The bound is the model's own
(log 12). -/
def Obligations.RunStepsUntilHalted : Prop :=
  (∀ (n : Nat) (s t : State) (r : StepReport), hostRun n s = .next (t, r) →
    r = t.report ∧
    (∃ k, k ≤ n ∧ Host.Core.run Sys2Proof.core k s = .next t ∧ (t.run = .running → k = n) ∧
      ∀ j u, j < k → Host.Core.run Sys2Proof.core j s = .next u → State.runState u = .running) ∧
    (t.runState = .halted → ∀ m, hostRun (n + m) s = .next (t, r))) ∧
  (∀ (n : Nat) (s : State) (o : HaltOutcome), s.run = .halted o →
    hostRun n s = .next (s, .halted o))

/-- 60_exceptions.md section 1: the numeric codes, which are the spec's own (decision D18): each
status and each kind has its number, and no two kinds share one. -/
def Obligations.StatusCodesTellOutcomesApart : Prop :=
  (∀ s : State, statusCode s = 0 ↔ s.outcome = none) ∧
  (∀ s : State, statusCode s = 1 ↔ s.outcome = some .haltedNormally) ∧
  (∀ s : State, statusCode s = 2 ↔ s.outcome = some .haltedOnIllegalOpcode) ∧
  (∀ s : State, statusCode s = 3 ↔ s.outcome = some .haltedOnExhaustion) ∧
  (∀ s : State, statusCode s = 4 ↔ ∃ kind, s.outcome = some (.haltedOnFault kind)) ∧
  (∀ s : State, faultCode s = 1 ↔ s.outcome = some (.haltedOnFault .registerOutOfRange)) ∧
  (∀ s : State, faultCode s = 2 ↔ s.outcome = some (.haltedOnFault .divisionByZero)) ∧
  (∀ s : State, faultCode s = 3 ↔ s.outcome = some (.haltedOnFault .programCounterUnderflow)) ∧
  (∀ s : State, faultCode s = 4 ↔ s.outcome = some (.haltedOnFault .programCounterOverflow)) ∧
  (∀ s : State, faultCode s = 5 ↔ s.outcome = some (.haltedOnFault .negativeAllocation)) ∧
  (∀ s : State, faultCode s = 0 ↔ ∀ kind, s.outcome ≠ some (.haltedOnFault kind))
end

