-- ==== Sys2Proof/Laws/Decode.lean ====
section
/-!
SUPPORT. The opcode table's mappings and the two decoders: small facts that proofs about encodings cite
(30_encoding.md rules R71 to R92).
-/

namespace Sys2Proof

/-! ## The opcode table -/

/-- No two rows share a code, a mnemonic or an operation: the mapping "is a bijection" (R70). -/
theorem opcodeTable_distinct :
    (opcodeTable.map OpcodeRow.code).Nodup ∧ (opcodeTable.map OpcodeRow.mnemonic).Nodup ∧
      (opcodeTable.map OpcodeRow.op).Nodup := by decide

/-- An Instruction is dispatched to the instruction that stands for it. -/
@[simp] theorem Instr.toInstruction_instr? (i : Instr) : i.toInstruction.instr? = some i := by
  cases i <;> rfl

/-- The instruction of an Instruction stands for it. -/
theorem Instruction.toInstruction_of_instr? {I : Instruction} {i : Instr} (h : I.instr? = some i) :
    i.toInstruction = I := by
  rcases I with ⟨op, a, b, c⟩
  cases op <;> simp only [Instruction.instr?, Option.some.injEq, reduceCtorEq] at h <;>
    subst h <;> rfl

/-- Only ILLEGAL has no instruction. -/
theorem Instruction.instr?_eq_none_iff (I : Instruction) : I.instr? = none ↔ I.opcode = .illegal := by
  rcases I with ⟨op, a, b, c⟩
  cases op <;> simp [Instruction.instr?]

/-! ## Bytes and slots -/

theorem Slot.ofByte_toInt (b : Byte) : (Slot.ofByte b).toInt = (b.toNat : Int) := by
  simp only [Slot.ofByte]
  rw [BitVec.toInt_eq_toNat_of_lt] <;> simp <;> omega

theorem Slot.ofImm16_toInt (hi lo : Byte) :
    (Slot.ofImm16 hi lo).toInt = 256 * (hi.toNat : Int) + lo.toNat := by
  have hlo := lo.isLt
  have hhi := hi.isLt
  have hn : (hi ++ lo).toNat = 256 * hi.toNat + lo.toNat := by
    rw [BitVec.toNat_append, Nat.shiftLeft_eq, Nat.mul_comm, show (2 : Nat) ^ 8 = 256 from rfl,
      Nat.mul_comm 256]
    rw [show hi.toNat * 256 = hi.toNat <<< 8 by simp [Nat.shiftLeft_eq],
      Nat.shiftLeft_add_eq_or_of_lt hlo]
  have h2 : (Slot.ofImm16 hi lo).toNat = 256 * hi.toNat + lo.toNat := by
    simp only [Slot.ofImm16, BitVec.toNat_setWidth, hn]; omega
  rw [BitVec.toInt_eq_toNat_of_lt (by omega), h2]; omega

theorem Slot.fitsByte_iff (v : Slot) : v.fitsByte = true ↔ v.toNat ≤ 255 := by
  simp only [Slot.fitsByte, decide_eq_true_eq, BitVec.toInt_eq_toNat_cond]
  have := v.isLt
  split <;> omega

theorem Slot.fitsImm16_iff (v : Slot) : v.fitsImm16 = true ↔ v.toNat ≤ 65535 := by
  simp only [Slot.fitsImm16, decide_eq_true_eq, BitVec.toInt_eq_toNat_cond]
  have := v.isLt
  split <;> omega

/-- The byte of a slot that fits a byte, put back into a slot, is the slot. -/
theorem Slot.ofByte_lowByte {v : Slot} (h : v.fitsByte = true) : Slot.ofByte v.lowByte = v := by
  rw [Slot.fitsByte_iff] at h
  apply BitVec.eq_of_toNat_eq
  simp [Slot.ofByte, Slot.lowByte, BitVec.extractLsb'_toNat]
  omega

@[simp] theorem Slot.lowByte_ofByte (b : Byte) : (Slot.ofByte b).lowByte = b := by
  apply BitVec.eq_of_toNat_eq
  simp [Slot.ofByte, Slot.lowByte, BitVec.extractLsb'_toNat]
  omega

/-! ## The binary decoder -/

@[simp] theorem decodeBinary_nil : decodeBinary [] = [] := rfl

@[simp] theorem decodeBinary_group (b0 b1 b2 b3 : Byte) (rest : List Byte) :
    decodeBinary (b0 :: b1 :: b2 :: b3 :: rest) =
      decodeGroup b0 b1 b2 b3 :: decodeBinary rest := rfl

/-- The encoding of an instruction is one group of four bytes. -/
theorem encode_length (i : Instr) : (encode i).length = 4 := by cases i <;> rfl

/-! ## The textual decoder -/

theorem splitTokens_space {ch : Char} (h : isSpace ch = true) (rest : List Char) :
    splitTokens (ch :: rest) = splitTokens rest := by
  simp [splitTokens, h]

theorem splitTokens_char {ch : Char} (h : ¬isSpace ch = true) (rest : List Char) :
    splitTokens (ch :: rest) =
      if startsRun rest then consFirst ch (splitTokens rest) else [ch] :: splitTokens rest := by
  simp [splitTokens, h]

/-- The tokens of a text that is one run of characters other than whitespace. -/
theorem splitTokens_run (t : List Char) (hne : t ≠ []) (h : ∀ ch ∈ t, isSpace ch = false) :
    splitTokens t = [t] := by
  induction t with
  | nil => exact absurd rfl hne
  | cons ch rest ih =>
    have hch := h ch (by simp)
    cases rest with
    | nil => simp [splitTokens, startsRun, hch]
    | cons d rest =>
      have hd := h d (by simp)
      rw [splitTokens, if_neg (by simp [hch]), if_pos (by simp [startsRun, hd]),
        ih (by simp) fun x hx => h x (by simp [hx])]
      rfl

/-- Tokens on both sides of a whitespace character are split there. -/
theorem splitTokens_append_space (xs ys : List Char) {ch : Char} (h : isSpace ch = true) :
    splitTokens (xs ++ ch :: ys) = splitTokens xs ++ splitTokens ys := by
  induction xs with
  | nil => simpa [splitTokens] using splitTokens_space h ys
  | cons x xs ih =>
    by_cases hx : isSpace x = true
    · rw [List.cons_append, splitTokens_space hx, splitTokens_space hx, ih]
    · cases xs with
      | nil =>
        have ih' : splitTokens (ch :: ys) = splitTokens ys := splitTokens_space h ys
        simp [splitTokens, hx, startsRun, h]
      | cons d xs =>
        rw [List.cons_append, splitTokens_char hx, ih, splitTokens_char hx]
        have hs : startsRun (d :: xs ++ ch :: ys) = startsRun (d :: xs) := rfl
        rw [hs]
        by_cases hd : startsRun (d :: xs) = true
        · rw [if_pos hd, if_pos hd]
          cases hr : splitTokens (d :: xs) with
          | nil =>
            have hds : isSpace d = false := by simpa [startsRun] using hd
            rw [splitTokens_char (by simp [hds])] at hr
            split at hr
            · cases h' : splitTokens xs <;> simp [h', consFirst] at hr
            · simp at hr
          | cons r rs => rfl
        · rw [if_neg hd, if_neg hd]; rfl

/-- A text without a line feed is one line, if it is not empty. -/
theorem cutLines_run (line : List Char) (hne : line ≠ []) (h : ∀ ch ∈ line, ch.toNat ≠ 0x0A) :
    cutLines line = [line] := by
  induction line with
  | nil => exact absurd rfl hne
  | cons ch rest ih =>
    have hch := h ch (by simp)
    rw [cutLines, if_neg (by simpa using hch)]
    cases rest with
    | nil => rfl
    | cons d rest => rw [ih (by simp) fun x hx => h x (by simp [hx])]; rfl

/-- A line feed ends a line. -/
theorem cutLines_append (line rest : List Char) (h : ∀ ch ∈ line, ch.toNat ≠ 0x0A) :
    cutLines (line ++ '\n' :: rest) = line :: cutLines rest := by
  induction line with
  | nil => rfl
  | cons ch line ih =>
    have hch := h ch (by simp)
    rw [List.cons_append, cutLines, if_neg (by simpa using hch),
      ih fun x hx => h x (by simp [hx])]
    rfl

end Sys2Proof
end

