-- ==== Sys2Proof/Laws/State.lean ====
section
/-!
SUPPORT. What each update of the state does to each field, and reading a register after writing one.
-/

namespace Sys2Proof.Machine

variable (s : State)

/-! ### setX -/

@[simp] theorem State.setX_regs (i : Fin 32) (v : Word) : (s.setX i v).regs = s.regs.set i v := rfl
@[simp] theorem State.setX_pc (i : Fin 32) (v : Word) : (s.setX i v).pc = s.pc := rfl
@[simp] theorem State.setX_equal (i : Fin 32) (v : Word) : (s.setX i v).equal = s.equal := rfl
@[simp] theorem State.setX_remainder (i : Fin 32) (v : Word) : (s.setX i v).remainder = s.remainder := rfl
@[simp] theorem State.setX_heap (i : Fin 32) (v : Word) : (s.setX i v).heap = s.heap := rfl
@[simp] theorem State.setX_program (i : Fin 32) (v : Word) : (s.setX i v).program = s.program := rfl
@[simp] theorem State.setX_run (i : Fin 32) (v : Word) : (s.setX i v).run = s.run := rfl
@[simp] theorem State.setX_capacity (i : Fin 32) (v : Word) : (s.setX i v).capacity = s.capacity := rfl

/-! ### setPc -/

@[simp] theorem State.setPc_regs (t : Nat) : (s.setPc t).regs = s.regs := rfl
@[simp] theorem State.setPc_pc (t : Nat) : (s.setPc t).pc = t := rfl
@[simp] theorem State.setPc_equal (t : Nat) : (s.setPc t).equal = s.equal := rfl
@[simp] theorem State.setPc_remainder (t : Nat) : (s.setPc t).remainder = s.remainder := rfl
@[simp] theorem State.setPc_heap (t : Nat) : (s.setPc t).heap = s.heap := rfl
@[simp] theorem State.setPc_program (t : Nat) : (s.setPc t).program = s.program := rfl
@[simp] theorem State.setPc_run (t : Nat) : (s.setPc t).run = s.run := rfl
@[simp] theorem State.setPc_capacity (t : Nat) : (s.setPc t).capacity = s.capacity := rfl

/-! ### setEqual -/

@[simp] theorem State.setEqual_regs (v : Bool) : (s.setEqual v).regs = s.regs := rfl
@[simp] theorem State.setEqual_pc (v : Bool) : (s.setEqual v).pc = s.pc := rfl
@[simp] theorem State.setEqual_equal (v : Bool) : (s.setEqual v).equal = v := rfl
@[simp] theorem State.setEqual_remainder (v : Bool) : (s.setEqual v).remainder = s.remainder := rfl
@[simp] theorem State.setEqual_heap (v : Bool) : (s.setEqual v).heap = s.heap := rfl
@[simp] theorem State.setEqual_program (v : Bool) : (s.setEqual v).program = s.program := rfl
@[simp] theorem State.setEqual_run (v : Bool) : (s.setEqual v).run = s.run := rfl
@[simp] theorem State.setEqual_capacity (v : Bool) : (s.setEqual v).capacity = s.capacity := rfl

/-! ### setRemainder -/

@[simp] theorem State.setRemainder_regs (v : Word) : (s.setRemainder v).regs = s.regs := rfl
@[simp] theorem State.setRemainder_pc (v : Word) : (s.setRemainder v).pc = s.pc := rfl
@[simp] theorem State.setRemainder_equal (v : Word) : (s.setRemainder v).equal = s.equal := rfl
@[simp] theorem State.setRemainder_remainder (v : Word) : (s.setRemainder v).remainder = v := rfl
@[simp] theorem State.setRemainder_heap (v : Word) : (s.setRemainder v).heap = s.heap := rfl
@[simp] theorem State.setRemainder_program (v : Word) : (s.setRemainder v).program = s.program := rfl
@[simp] theorem State.setRemainder_run (v : Word) : (s.setRemainder v).run = s.run := rfl
@[simp] theorem State.setRemainder_capacity (v : Word) : (s.setRemainder v).capacity = s.capacity := rfl

/-! ### halt -/

@[simp] theorem State.halt_regs (o : HaltOutcome) : (s.halt o).regs = s.regs := rfl
@[simp] theorem State.halt_pc (o : HaltOutcome) : (s.halt o).pc = s.pc := rfl
@[simp] theorem State.halt_equal (o : HaltOutcome) : (s.halt o).equal = s.equal := rfl
@[simp] theorem State.halt_remainder (o : HaltOutcome) : (s.halt o).remainder = s.remainder := rfl
@[simp] theorem State.halt_heap (o : HaltOutcome) : (s.halt o).heap = s.heap := rfl
@[simp] theorem State.halt_program (o : HaltOutcome) : (s.halt o).program = s.program := rfl
@[simp] theorem State.halt_run (o : HaltOutcome) : (s.halt o).run = .halted o := rfl
@[simp] theorem State.halt_capacity (o : HaltOutcome) : (s.halt o).capacity = s.capacity := rfl

/-! ### raiseFault -/

@[simp] theorem State.raiseFault_regs (k : FaultKind) : (s.raiseFault k).regs = s.regs := rfl
@[simp] theorem State.raiseFault_pc (k : FaultKind) : (s.raiseFault k).pc = s.pc := rfl
@[simp] theorem State.raiseFault_equal (k : FaultKind) : (s.raiseFault k).equal = s.equal := rfl
@[simp] theorem State.raiseFault_remainder (k : FaultKind) : (s.raiseFault k).remainder = s.remainder := rfl
@[simp] theorem State.raiseFault_heap (k : FaultKind) : (s.raiseFault k).heap = s.heap := rfl
@[simp] theorem State.raiseFault_program (k : FaultKind) : (s.raiseFault k).program = s.program := rfl
@[simp] theorem State.raiseFault_run (k : FaultKind) : (s.raiseFault k).run = .halted (.haltedOnFault k) := rfl
@[simp] theorem State.raiseFault_capacity (k : FaultKind) : (s.raiseFault k).capacity = s.capacity := rfl

/-! ### Registers -/

@[simp] theorem State.setX_x_self (i : Fin 32) (v : Word) : (s.setX i v).x i = v := by
  simp [State.x, State.setX]

theorem State.setX_x_ne (i j : Fin 32) (v : Word) (h : j ≠ i) : (s.setX i v).x j = s.x j := by
  have hne : (i : Nat) ≠ j := fun e => h (Fin.ext e.symm)
  simp [State.x, State.setX, hne]

@[simp] theorem State.setPc_x (t : Nat) (j : Fin 32) : (s.setPc t).x j = s.x j := rfl
@[simp] theorem State.setEqual_x (v : Bool) (j : Fin 32) : (s.setEqual v).x j = s.x j := rfl
@[simp] theorem State.setRemainder_x (v : Word) (j : Fin 32) : (s.setRemainder v).x j = s.x j := rfl
@[simp] theorem State.halt_x (o : HaltOutcome) (j : Fin 32) : (s.halt o).x j = s.x j := rfl
@[simp] theorem State.raiseFault_x (k : FaultKind) (j : Fin 32) : (s.raiseFault k).x j = s.x j := rfl

/-! ### Run state and outcome -/

@[simp] theorem State.halt_runState (o : HaltOutcome) : (s.halt o).runState = .halted := rfl
@[simp] theorem State.halt_outcome (o : HaltOutcome) : (s.halt o).outcome = some o := rfl
@[simp] theorem State.raiseFault_outcome (k : FaultKind) :
    (s.raiseFault k).outcome = some (.haltedOnFault k) := rfl

/-- The outcome is none exactly while the engine is Running (R32). -/
theorem State.outcome_eq_none_iff : s.outcome = none ↔ s.runState = .running := by
  unfold State.outcome State.runState
  cases s.run <;> simp

end Sys2Proof.Machine
end

