-- ==== Sys2Proof/Laws/Memory.lean ====
section
/-!
SUPPORT. The heap's bytes and its canonical form (20_memory.md rules R52 to R55).
-/

namespace Sys2Proof.Machine

/-- Every address of the cells is at least `a`. -/
def Memory.From (a : Nat) (cells : List Host.Cell) : Prop := ∀ c ∈ cells, a ≤ c.1

theorem Memory.rising_cons (c : Host.Cell) (rest : List Host.Cell) :
    Memory.rising (c :: rest) = true ↔ Memory.From (c.1 + 1) rest ∧ Memory.rising rest = true := by
  induction rest generalizing c with
  | nil => simp [Memory.rising, Memory.From]
  | cons d rest ih =>
    have hd := ih d
    simp only [Memory.rising, Bool.and_eq_true, decide_eq_true_eq, Memory.From, List.mem_cons,
      forall_eq_or_imp] at hd ⊢
    constructor
    · rintro ⟨h, hr⟩
      exact ⟨⟨h, fun x hx => by have := (hd.1 hr).1 x hx; omega⟩, hr⟩
    · rintro ⟨⟨h, -⟩, hr⟩
      exact ⟨h, hr⟩

theorem Memory.lookup_of_from {a : Nat} {cells : List Host.Cell} (h : Memory.From (a + 1) cells) :
    Memory.lookup cells a = Memory.unlisted := by
  induction cells with
  | nil => rfl
  | cons c rest ih =>
    have hc := h c (by simp)
    rw [Memory.lookup, if_neg (by omega), ih fun x hx => h x (by simp [hx])]

theorem Memory.from_place {lo a : Nat} {b : Byte} {cells : List Host.Cell} (ha : lo ≤ a)
    (h : Memory.From lo cells) : Memory.From lo (Memory.place a b cells) := by
  induction cells with
  | nil =>
    unfold Memory.place
    split <;> simp [Memory.From, ha]
  | cons c rest ih =>
    have hrest : Memory.From lo rest := fun x hx => h x (by simp [hx])
    have hc := h c (by simp)
    unfold Memory.place
    split
    · intro x hx
      rcases List.mem_cons.1 hx with rfl | hx
      · exact hc
      · exact ih hrest x hx
    · split
      · split
        · exact hrest
        · intro x hx
          rcases List.mem_cons.1 hx with rfl | hx
          · exact ha
          · exact hrest x hx
      · split
        · exact h
        · intro x hx
          rcases List.mem_cons.1 hx with rfl | hx
          · exact ha
          · exact h x hx

/-- Placing a byte keeps the cells rising. -/
theorem Memory.rising_place (a : Nat) (b : Byte) (cells : List Host.Cell)
    (h : Memory.rising cells = true) : Memory.rising (Memory.place a b cells) = true := by
  induction cells with
  | nil => unfold Memory.place; split <;> rfl
  | cons c rest ih =>
    obtain ⟨hf, hr⟩ := (Memory.rising_cons c rest).1 h
    unfold Memory.place
    split
    · rename_i hlt
      exact (Memory.rising_cons _ _).2 ⟨Memory.from_place (by omega) hf, ih hr⟩
    · split
      · rename_i heq
        split
        · exact hr
        · exact (Memory.rising_cons _ _).2 ⟨by simpa [heq] using hf, hr⟩
      · split
        · exact h
        · refine (Memory.rising_cons _ _).2 ⟨?_, h⟩
          intro x hx
          rcases List.mem_cons.1 hx with rfl | hx
          · show a + 1 ≤ x.1; omega
          · have := hf x hx; show a + 1 ≤ x.1; omega

/-- Reading after placing a byte: the byte at its address, every other address as before. -/
theorem Memory.lookup_place (a x : Nat) (b : Byte) (cells : List Host.Cell)
    (h : Memory.rising cells = true) :
    Memory.lookup (Memory.place a b cells) x = if x = a then b else Memory.lookup cells x := by
  induction cells with
  | nil =>
    unfold Memory.place
    split
    · rename_i hb; subst hb; simp [Memory.lookup]
    · by_cases hx : x = a
      · simp [Memory.lookup, hx]
      · simp [Memory.lookup, hx, Ne.symm hx]
  | cons c rest ih =>
    obtain ⟨hf, hr⟩ := (Memory.rising_cons c rest).1 h
    unfold Memory.place
    split
    · by_cases hx : x = a
      · subst hx
        rw [Memory.lookup, if_neg (by omega), ih hr]; simp
      · simp [Memory.lookup, ih hr, hx]
    · split
      · rename_i heq
        have hout : x = a → Memory.lookup rest x = Memory.unlisted := by
          rintro rfl; exact Memory.lookup_of_from (by simpa [heq] using hf)
        split
        · rename_i hb
          by_cases hx : x = a
          · simp [hx, hb, hout hx ▸ congrArg (Memory.lookup rest) hx.symm]
          · simp [Memory.lookup, hx, show c.1 ≠ x by omega]
        · by_cases hx : x = a
          · simp [Memory.lookup, hx]
          · simp [Memory.lookup, hx, Ne.symm hx, show c.1 ≠ x by omega]
      · have hout : x = a → Memory.lookup (c :: rest) x = Memory.unlisted := by
          rintro rfl
          refine Memory.lookup_of_from fun y hy => ?_
          rcases List.mem_cons.1 hy with rfl | hy
          · omega
          · have := hf y hy; omega
        split
        · rename_i hb
          by_cases hx : x = a
          · rw [hout hx]; simp [hx, hb]
          · simp [hx]
        · by_cases hx : x = a
          · simp [Memory.lookup, hx]
          · simp [Memory.lookup, hx, Ne.symm hx]

/-- Placing a byte keeps every listed byte non-zero and inside the heap. -/
theorem Memory.all_place (a : Nat) (b : Byte) (cells : List Host.Cell) (len : Nat) (ha : a < len)
    (h : cells.all (fun c => decide (c.1 < len) && decide (c.2 ≠ 0)) = true) :
    (Memory.place a b cells).all (fun c => decide (c.1 < len) && decide (c.2 ≠ 0)) = true := by
  have cell : b ≠ Memory.unlisted → decide (a < len) = true ∧ decide (b ≠ 0) = true := fun hb => by
    simpa [Memory.unlisted, ha] using hb
  induction cells with
  | nil =>
    unfold Memory.place
    split
    · rfl
    · rename_i hb
      simp only [List.all_cons, List.all_nil, Bool.and_eq_true]
      exact ⟨cell hb, trivial⟩
  | cons c rest ih =>
    simp only [List.all_cons, Bool.and_eq_true] at h ih
    unfold Memory.place
    split
    · simp only [List.all_cons, Bool.and_eq_true]; exact ⟨h.1, ih h.2⟩
    · split
      · split
        · exact h.2
        · rename_i hb
          simp only [List.all_cons, Bool.and_eq_true]; exact ⟨cell hb, h.2⟩
      · split
        · simp only [List.all_cons, Bool.and_eq_true]; exact h
        · rename_i hb
          simp only [List.all_cons, Bool.and_eq_true]; exact ⟨cell hb, h⟩

/-- The canonical form in words. -/
theorem Memory.wf_iff (m : Memory) : m.wf = true ↔
    Memory.rising m.cells = true ∧
      m.cells.all (fun c => decide (c.1 < m.len) && decide (c.2 ≠ 0)) = true := by
  simp only [Memory.wf, Bool.and_eq_true]

/-- Growing keeps the canonical form. -/
theorem Memory.wf_grow (m : Memory) (n : Nat) (h : m.wf = true) : (m.grow n).wf = true := by
  rw [Memory.wf_iff] at h ⊢
  refine ⟨h.1, ?_⟩
  rw [List.all_eq_true] at h ⊢
  intro c hc
  have := h.2 c hc
  simp only [Bool.and_eq_true, decide_eq_true_eq] at this ⊢
  exact ⟨by simp only [Memory.grow]; omega, this.2⟩

/-- Storing bytes inside the heap keeps the canonical form. -/
theorem Memory.wf_placeAll (m : Memory) (addr : Nat) (bytes : List Byte)
    (hb : addr + bytes.length ≤ m.len) (h : m.wf = true) :
    ({ m with cells := Memory.placeAll m.cells addr bytes } : Memory).wf = true := by
  induction bytes generalizing m addr with
  | nil => simpa [Memory.placeAll] using h
  | cons b bs ih =>
    rw [List.length_cons] at hb
    have h1 : ({ m with cells := Memory.place addr b m.cells } : Memory).wf = true := by
      rw [Memory.wf_iff] at h ⊢
      exact ⟨Memory.rising_place _ _ _ h.1, Memory.all_place addr b m.cells m.len (by omega) h.2⟩
    have hlen : addr + 1 + bs.length ≤ m.len := by omega
    exact ih { m with cells := Memory.place addr b m.cells } (addr + 1) hlen h1

/-- Reading after storing bytes: the stored byte inside the range, every other address as before. -/
theorem Memory.lookup_placeAll (cells : List Host.Cell) (addr x : Nat) (bytes : List Byte)
    (h : Memory.rising cells = true) :
    Memory.lookup (Memory.placeAll cells addr bytes) x =
      if addr ≤ x ∧ x < addr + bytes.length then bytes.getD (x - addr) 0
      else Memory.lookup cells x := by
  induction bytes generalizing cells addr with
  | nil => rw [Memory.placeAll, if_neg (by simp)]
  | cons b bs ih =>
    rw [Memory.placeAll, ih _ _ (Memory.rising_place _ _ _ h), Memory.lookup_place _ _ _ _ h,
      List.length_cons]
    by_cases hx : x = addr
    · subst hx; simp
    · by_cases hin : addr + 1 ≤ x ∧ x < addr + 1 + bs.length
      · rw [if_pos hin, if_pos (by omega), show x - addr = (x - (addr + 1)) + 1 by omega,
          List.getD_cons_succ]
      · rw [if_neg hin, if_neg hx, if_neg (by omega)]

/-- Every address at or above the length of a heap in canonical form reads as unlisted. -/
theorem Memory.lookup_of_len_le (m : Memory) (h : m.wf = true) (a : Nat) (ha : m.len ≤ a) :
    Memory.lookup m.cells a = Memory.unlisted := by
  obtain ⟨-, hall⟩ := (Memory.wf_iff m).1 h
  generalize m.cells = cells at hall
  induction cells with
  | nil => rfl
  | cons c rest ih =>
    rw [List.all_cons, Bool.and_eq_true] at hall
    have hc := hall.1
    simp only [Bool.and_eq_true, decide_eq_true_eq] at hc
    rw [Memory.lookup, if_neg (by omega), ih hall.2]

/-- A byte of the heap after growth: as before below the old length, 0 in the new part. -/
theorem Memory.byte?_grow (m : Memory) (n a : Nat) (h : m.wf = true) :
    (m.grow n).byte? a =
      if a < m.len then m.byte? a else if a < m.len + n then some 0 else none := by
  unfold Memory.byte? Memory.grow
  by_cases ha : a < m.len
  · simp [ha, show a < m.len + n by omega]
  · simp only [ha, if_false]
    rw [Memory.lookup_of_len_le m h a (by omega)]
    rfl

end Sys2Proof.Machine
end

