-- ==== Sys2Proof/Laws/Operands.lean ====
section
/-!
SUPPORT. What the register-index check does (40_engine_step.md rule R114).
-/

namespace Sys2Proof.Machine

/-- A slot is accepted as register `i` exactly when its signed value is `i`. -/
theorem regIndex?_eq_some_iff (v : Slot) (i : Fin 32) :
    regIndex? v = some i ↔ v.toInt = (i.val : Int) := by
  unfold regIndex?
  split
  · rename_i h
    simp only [Option.some.injEq, Fin.ext_iff]
    omega
  · rename_i h
    have := i.isLt
    simp only [reduceCtorEq, false_iff]
    omega

/-- A slot is rejected exactly when its signed value is outside 0..31. -/
theorem regIndex?_eq_none_iff (v : Slot) : regIndex? v = none ↔ v.toInt < 0 ∨ 31 < v.toInt := by
  unfold regIndex?
  split
  · simp only [reduceCtorEq, false_iff]; omega
  · simp only [true_iff]; omega

variable {s t : State} {body : Fin 32 → Host.Outcome State Fault Refusal}
variable {body2 : Fin 32 → Fin 32 → Host.Outcome State Fault Refusal}
variable {body3 : Fin 32 → Fin 32 → Fin 32 → Host.Outcome State Fault Refusal}

theorem withReg_of_index {a : Slot} {i : Fin 32} (h : a.toInt = (i.val : Int)) :
    withReg a s body = body i := by
  simp [withReg, (regIndex?_eq_some_iff a i).2 h]

theorem withReg_of_out {a : Slot} (h : a.toInt < 0 ∨ 31 < a.toInt) :
    withReg a s body = .next (s.raiseFault .registerOutOfRange) := by
  simp [withReg, (regIndex?_eq_none_iff a).2 h]

/-- One register slot: either the check fails and the step faults, or the body runs on the register
the slot names. -/
theorem withReg_cases (a : Slot) (s : State) (body : Fin 32 → Host.Outcome State Fault Refusal) :
    ((a.toInt < 0 ∨ 31 < a.toInt) ∧ withReg a s body = .next (s.raiseFault .registerOutOfRange)) ∨
    ∃ i : Fin 32, a.toInt = (i.val : Int) ∧ withReg a s body = body i := by
  cases h : regIndex? a with
  | none =>
    have h' := (regIndex?_eq_none_iff a).1 h
    exact .inl ⟨h', withReg_of_out h'⟩
  | some i =>
    have h' := (regIndex?_eq_some_iff a i).1 h
    exact .inr ⟨i, h', withReg_of_index h'⟩

theorem withRegs2_of_index {a b : Slot} {i j : Fin 32} (ha : a.toInt = (i.val : Int))
    (hb : b.toInt = (j.val : Int)) : withRegs2 a b s body2 = body2 i j := by
  simp [withRegs2, withReg_of_index ha, withReg_of_index hb]

theorem withRegs3_of_index {a b c : Slot} {i j k : Fin 32} (ha : a.toInt = (i.val : Int))
    (hb : b.toInt = (j.val : Int)) (hc : c.toInt = (k.val : Int)) :
    withRegs3 a b c s body3 = body3 i j k := by
  simp [withRegs3, withReg_of_index ha, withReg_of_index hb, withReg_of_index hc]

/-- Two register slots: either one of them fails the check, or the body runs. -/
theorem withRegs2_cases (a b : Slot) (s : State)
    (body2 : Fin 32 → Fin 32 → Host.Outcome State Fault Refusal) :
    withRegs2 a b s body2 = .next (s.raiseFault .registerOutOfRange) ∨
    ∃ i j : Fin 32, a.toInt = (i.val : Int) ∧ b.toInt = (j.val : Int) ∧
      withRegs2 a b s body2 = body2 i j := by
  rcases withReg_cases a s (fun i => withReg b s fun j => body2 i j) with ⟨-, h⟩ | ⟨i, hi, h⟩
  · exact .inl h
  · rcases withReg_cases b s (fun j => body2 i j) with ⟨-, h'⟩ | ⟨j, hj, h'⟩
    · exact .inl (h.trans h')
    · exact .inr ⟨i, j, hi, hj, h.trans h'⟩

/-- Three register slots: either one of them fails the check, or the body runs. -/
theorem withRegs3_cases (a b c : Slot) (s : State)
    (body3 : Fin 32 → Fin 32 → Fin 32 → Host.Outcome State Fault Refusal) :
    withRegs3 a b c s body3 = .next (s.raiseFault .registerOutOfRange) ∨
    ∃ i j k : Fin 32, a.toInt = (i.val : Int) ∧ b.toInt = (j.val : Int) ∧ c.toInt = (k.val : Int) ∧
      withRegs3 a b c s body3 = body3 i j k := by
  rcases withReg_cases a s (fun i => withReg b s fun j => withReg c s fun k => body3 i j k) with
    ⟨-, h⟩ | ⟨i, hi, h⟩
  · exact .inl h
  · rcases withRegs2_cases b c s (fun j k => body3 i j k) with h' | ⟨j, k, hj, hk, h'⟩
    · exact .inl (h.trans h')
    · exact .inr ⟨i, j, k, hi, hj, hk, h.trans h'⟩

end Sys2Proof.Machine
end

