-- ==== Sys2Proof/Laws/Ops.lean ====
section
/-!
SUPPORT. Everything each shared operation can do: arithmetic helpers, the heap primitives, the end of
a jump, the fetch.
-/

namespace Sys2Proof.Machine

/-! ## Arithmetic helpers -/

/-- The value `wrap32` writes is congruent to its argument modulo 2^32 (R10). -/
theorem wrap32_congr (n : Int) : (wrap32 n).toInt % 2 ^ 32 = n % 2 ^ 32 := by
  simp only [wrap32, BitVec.toInt_ofInt]
  exact Int.bmod_emod

/-- A result inside the signed 32-bit range is written as it is. -/
theorem wrap32_of_fits (n : Int) (h : -2 ^ 31 ≤ n ∧ n < 2 ^ 31) : (wrap32 n).toInt = n := by
  simp only [wrap32, BitVec.toInt_ofInt]
  exact Int.bmod_eq_of_le (by omega) (by omega)

/-- `u32` is the argument modulo 2^32, read as unsigned (R10). -/
theorem u32_toNat (n : Int) : ((u32 n).toNat : Int) = n % 2 ^ 32 := by
  simp only [u32, BitVec.toNat_ofInt]
  omega

/-- Dividend, divisor, quotient and remainder (R142). -/
theorem truncDiv_mul_add_truncRem (a b : Int) : b * truncDiv a b + truncRem a b = a := by
  simp only [truncRem]; omega

theorem truncRem_eq_tmod (a b : Int) : truncRem a b = a.tmod b := by
  have := Int.mul_tdiv_add_tmod a b
  simp only [truncRem, truncDiv]; omega

/-! ## Heap primitives -/

variable {s t : State}

/-- A growth that completes adds `n` to the heap's length and changes nothing else (R53). -/
theorem heapGrow_next_iff (n : Nat) (s t : State) :
    heapGrow n s = .next t ↔ s.heapMayGrow n = true ∧ t = { s with heap := s.heap.grow n } := by
  unfold heapGrow
  split
  · rename_i h; simp [h, eq_comm]
  · rename_i h; simp [h]

/-- A growth past a finite HEAP_MAX is refused (93 U6). -/
theorem heapGrow_refused (n : Nat) (s : State) (h : s.heapMayGrow n = false) :
    heapGrow n s = .refused .heapPastMax := by
  simp [heapGrow, h]

theorem heapMayGrow_of_unbounded (n : Nat) (s : State) (h : s.capacity.heapMax = none) :
    s.heapMayGrow n = true := by
  simp [State.heapMayGrow, h]

theorem heapMayGrow_iff (n : Nat) (s : State) :
    s.heapMayGrow n = true ↔ ∀ bound, s.capacity.heapMax = some bound → s.heap.len + n ≤ bound := by
  unfold State.heapMayGrow
  cases s.capacity.heapMax <;> simp

/-- A read that completes gives the bytes of its range in order (R54). -/
theorem memRead_next_iff (addr n : Nat) (s : State) (bytes : List Byte) :
    memRead addr n s = .next bytes ↔ (1 ≤ n ∧ addr + n ≤ s.heap.len) ∧
      bytes = (List.range n).map fun i => Memory.lookup s.heap.cells (addr + i) := by
  unfold memRead
  split
  · rename_i h; simp [h, eq_comm]
  · rename_i h; simp [h]

/-- A write that completes changes the heap's cells alone, and keeps their canonical form (R55). -/
theorem memWrite_next_iff (addr : Nat) (bytes : List Byte) (s t : State) :
    memWrite addr bytes s = .next t ↔
      (1 ≤ bytes.length ∧ addr + bytes.length ≤ s.heap.len) ∧
      t = { s with heap := { s.heap with cells := Memory.placeAll s.heap.cells addr bytes } } := by
  unfold memWrite
  split
  · rename_i h; simp [h, eq_comm]
  · rename_i h; simp [h]

theorem memWrite_wf (addr : Nat) (bytes : List Byte) (s t : State) (hwf : s.heap.wf = true)
    (h : memWrite addr bytes s = .next t) : t.heap.wf = true := by
  obtain ⟨⟨-, hb⟩, rfl⟩ := (memWrite_next_iff addr bytes s t).1 h
  exact Memory.wf_placeAll s.heap addr bytes hb hwf

theorem heapGrow_wf (n : Nat) (s t : State) (hwf : s.heap.wf = true)
    (h : heapGrow n s = .next t) : t.heap.wf = true := by
  obtain ⟨-, rfl⟩ := (heapGrow_next_iff n s t).1 h
  exact Memory.wf_grow s.heap n hwf

theorem reset_heap_wf : State.reset.heap.wf = true := rfl

/-! ## The end of a jump -/

theorem jumpTo_of_neg (t : Int) (s : State) (h : t < 0) :
    jumpTo t s = .next (s.raiseFault .programCounterUnderflow) := by
  simp [jumpTo, h]

theorem jumpTo_of_nonneg (t : Int) (s : State) (h : 0 ≤ t) : jumpTo t s = .next (s.setPc t.toNat) := by
  simp [jumpTo, show ¬ t < 0 by omega]

/-- A jump always completes: it faults below 0 and writes the pc otherwise (R165). -/
theorem jumpTo_cases (t : Int) (s : State) :
    (t < 0 ∧ jumpTo t s = .next (s.raiseFault .programCounterUnderflow)) ∨
    (0 ≤ t ∧ jumpTo t s = .next (s.setPc t.toNat)) := by
  rcases lt_or_ge t 0 with h | h
  · exact .inl ⟨h, jumpTo_of_neg t s h⟩
  · exact .inr ⟨h, jumpTo_of_nonneg t s h⟩

/-! ## The fetch -/

/-- Where the pc is inside the program the fetch gives that Instruction and advances the pc. -/
theorem fetch_of_getElem? {I : Instruction} (h : s.program[s.pc]? = some I) :
    fetch s = .fetched I (s.setPc (s.pc + 1)) := by
  simp [fetch, h]

theorem fetch_of_eq (h : s.pc = s.program.length) : fetch s = .exhausted := by
  simp [fetch, h]

theorem fetch_of_gt (h : s.program.length < s.pc) : fetch s = .pastEnd := by
  have hne : s.pc ≠ s.program.length := by omega
  simp [fetch, List.getElem?_eq_none (Nat.le_of_lt h), hne]

/-- Everything a fetch can find (R111). -/
theorem fetch_cases (s : State) :
    (∃ I, s.program[s.pc]? = some I ∧ s.pc < s.program.length ∧
      fetch s = .fetched I (s.setPc (s.pc + 1))) ∨
    (s.pc = s.program.length ∧ fetch s = .exhausted) ∨
    (s.program.length < s.pc ∧ fetch s = .pastEnd) := by
  rcases lt_trichotomy s.pc s.program.length with h | h | h
  · exact .inl ⟨s.program[s.pc], List.getElem?_eq_getElem h, h,
      fetch_of_getElem? (List.getElem?_eq_getElem h)⟩
  · exact .inr (.inl ⟨h, fetch_of_eq h⟩)
  · exact .inr (.inr ⟨h, fetch_of_gt h⟩)

end Sys2Proof.Machine
end

