-- ==== Sys2Proof/Laws/Exec.lean ====
section
/-!
SUPPORT. Everything an instruction and a step can do, said once: from `exec i s = next t` or
`step s = next t`, which of a few updates of `s` gives `t`.
-/

namespace Sys2Proof.Machine

/-! ## One instruction -/

/-- The updates of the state by which instruction `i` can end, one constructor each. -/
inductive Effect (i : Instr) (s : State) : State → Prop
  | outOfRange : Effect i s (s.raiseFault .registerOutOfRange)
  | divByZero (hi : i.isDiv) : Effect i s (s.raiseFault .divisionByZero)
  | underflow (hi : i.isJump = true) : Effect i s (s.raiseFault .programCounterUnderflow)
  | negative (hi : i.isAloc) : Effect i s (s.raiseFault .negativeAllocation)
  | stopped (hi : i.isHlt) : Effect i s (s.halt .haltedNormally)
  | wroteReg (hj : i.isJump = false) (d : Fin 32) (v : Word) : Effect i s (s.setX d v)
  | divided (hi : i.isDiv) (d : Fin 32) (v r : Word) : Effect i s ((s.setX d v).setRemainder r)
  | jumped (hi : i.isJump = true) (d : Int) (h0 : 0 ≤ d) (hd : d ≤ s.pc + 2 ^ 31) :
      Effect i s (s.setPc d.toNat)
  | fellThrough (hi : i.isJump = true) : Effect i s s
  | compared (hi : i.isComparison = true) (v : Bool) : Effect i s (s.setEqual v)
  | grew (hi : i.isAloc) (n : Nat) (hn : s.heapMayGrow n = true) :
      Effect i s { s with heap := s.heap.grow n }

/-- The signed value of a register lies in [-2^31, 2^31 - 1] (R10). -/
theorem State.xInt_bounds (s : State) (i : Fin 32) : -2 ^ 31 ≤ s.xInt i ∧ s.xInt i < 2 ^ 31 :=
  ⟨BitVec.le_toInt (s.x i), BitVec.toInt_lt⟩

variable {s t : State}

theorem arith_effect {i : Instr} {ra rb rd : Slot} {op : Int → Int → Int}
    (hj : i.isJump = false) (h : arith ra rb rd op s = .next t) : Effect i s t := by
  rcases withRegs3_cases ra rb rd s _ with h' | ⟨a, b, d, -, -, -, h'⟩ <;>
    rw [arith, h', Host.Outcome.next.injEq] at h <;> subst h
  · exact .outOfRange
  · exact .wroteReg hj _ _

theorem compareRegs_effect {i : Instr} {ra rb : Slot} {rel : Word → Word → Bool}
    (hi : i.isComparison = true) (h : compareRegs ra rb rel s = .next t) : Effect i s t := by
  rcases withRegs2_cases ra rb s _ with h' | ⟨a, b, -, -, h'⟩ <;>
    rw [compareRegs, h', Host.Outcome.next.injEq] at h <;> subst h
  · exact .outOfRange
  · exact .compared hi _

theorem jumpTo_effect {i : Instr} {d : Int} (hi : i.isJump = true) (hd : d ≤ s.pc + 2 ^ 31)
    (h : jumpTo d s = .next t) : Effect i s t := by
  rcases jumpTo_cases d s with ⟨-, h'⟩ | ⟨h0, h'⟩ <;>
    rw [h', Host.Outcome.next.injEq] at h <;> subst h
  · exact .underflow hi
  · exact .jumped hi d h0 hd

/-- A body behind the check of one register slot ends as the body does, or out of range. -/
theorem withReg_effect {i : Instr} {a : Slot} {body : Fin 32 → Host.Outcome State Fault Refusal}
    (hbody : ∀ j, body j = .next t → Effect i s t) (h : withReg a s body = .next t) :
    Effect i s t := by
  rcases withReg_cases a s body with ⟨-, h'⟩ | ⟨j, -, h'⟩ <;> rw [h'] at h
  · rw [Host.Outcome.next.injEq] at h; subst h; exact .outOfRange
  · exact hbody j h

/-- Everything an instruction can do when it gives a next state. -/
theorem exec_effect (i : Instr) (h : exec i s = .next t) : Effect i s t := by
  cases i with
  | hlt a b c => cases h; exact .stopped ⟨a, b, c, rfl⟩
  | load rd imm c => exact withReg_effect (fun d h => by cases h; exact .wroteReg rfl d imm) h
  | add ra rb rd => exact arith_effect rfl h
  | sub ra rb rd => exact arith_effect rfl h
  | mul ra rb rd => exact arith_effect rfl h
  | div ra rb rd =>
    have hi : (Instr.div ra rb rd).isDiv := ⟨ra, rb, rd, rfl⟩
    rcases withRegs3_cases ra rb rd s _ with h' | ⟨a, b, d, -, -, -, h'⟩ <;>
      rw [exec, execDiv, h'] at h
    · cases h; exact .outOfRange
    · beta_reduce at h
      split at h <;> cases h
      · exact .divByZero hi
      · exact .divided hi _ _ _
  | jmp ra b c =>
    refine withReg_effect (fun j h => jumpTo_effect rfl ?_ h) h
    have := s.xInt_bounds j; omega
  | jmpf ra b c =>
    refine withReg_effect (fun j h => jumpTo_effect rfl ?_ h) h
    have := s.xInt_bounds j; omega
  | jmpb ra b c =>
    refine withReg_effect (fun j h => jumpTo_effect rfl ?_ h) h
    have := s.xInt_bounds j; omega
  | eq ra rb c => exact compareRegs_effect rfl h
  | neq ra rb c => exact compareRegs_effect rfl h
  | gt ra rb c => exact compareRegs_effect rfl h
  | lt ra rb c => exact compareRegs_effect rfl h
  | gtq ra rb c => exact compareRegs_effect rfl h
  | ltq ra rb c => exact compareRegs_effect rfl h
  | jeq ra b c =>
    refine withReg_effect (fun j h => ?_) h
    split at h
    · refine jumpTo_effect rfl ?_ h
      have := s.xInt_bounds j; omega
    · cases h; exact .fellThrough rfl
  | aloc ra b c =>
    have hi : (Instr.aloc ra b c).isAloc := ⟨ra, b, c, rfl⟩
    refine withReg_effect (fun j h => ?_) h
    split at h
    · cases h; exact .negative hi
    · obtain ⟨hn, rfl⟩ := (heapGrow_next_iff _ _ _).1 h
      exact .grew hi _ hn
  | inc ra b c => exact withReg_effect (fun d h => by cases h; exact .wroteReg rfl d _) h
  | dec ra b c => exact withReg_effect (fun d h => by cases h; exact .wroteReg rfl d _) h

/-- An instruction gives a next state, except for an ALOC that would pass a finite HEAP_MAX. -/
theorem exec_next_or_refused (i : Instr) (s : State) :
    (∃ t, exec i s = .next t) ∨
      (i.isAloc ∧ s.capacity.heapMax ≠ none ∧ exec i s = .refused .heapPastMax) := by
  have reg : ∀ (a : Slot) (body : Fin 32 → Host.Outcome State Fault Refusal),
      (∀ j, ∃ t, body j = .next t) → ∃ t, withReg a s body = .next t := fun a body hb => by
    rcases withReg_cases a s body with ⟨-, h⟩ | ⟨j, -, h⟩
    · exact ⟨_, h⟩
    · exact (hb j).imp fun t ht => h.trans ht
  have jump : ∀ d, ∃ t, jumpTo d s = .next t := fun d => by
    rcases jumpTo_cases d s with ⟨-, h⟩ | ⟨-, h⟩ <;> exact ⟨_, h⟩
  have cmp : ∀ ra rb rel, ∃ t, compareRegs ra rb rel s = .next t := fun ra rb rel =>
    reg ra _ fun i => reg rb _ fun j => ⟨_, rfl⟩
  have arit : ∀ ra rb rd op, ∃ t, arith ra rb rd op s = .next t := fun ra rb rd op =>
    reg ra _ fun i => reg rb _ fun j => reg rd _ fun k => ⟨_, rfl⟩
  cases i with
  | hlt a b c => exact .inl ⟨_, rfl⟩
  | load rd imm c => exact .inl (reg rd _ fun d => ⟨_, rfl⟩)
  | add ra rb rd => exact .inl (arit ra rb rd _)
  | sub ra rb rd => exact .inl (arit ra rb rd _)
  | mul ra rb rd => exact .inl (arit ra rb rd _)
  | div ra rb rd =>
    refine .inl (reg ra _ fun i => reg rb _ fun j => reg rd _ fun k => ?_)
    beta_reduce
    split <;> exact ⟨_, rfl⟩
  | jmp ra b c => exact .inl (reg ra _ fun j => jump _)
  | jmpf ra b c => exact .inl (reg ra _ fun j => jump _)
  | jmpb ra b c => exact .inl (reg ra _ fun j => jump _)
  | eq ra rb c => exact .inl (cmp ra rb _)
  | neq ra rb c => exact .inl (cmp ra rb _)
  | gt ra rb c => exact .inl (cmp ra rb _)
  | lt ra rb c => exact .inl (cmp ra rb _)
  | gtq ra rb c => exact .inl (cmp ra rb _)
  | ltq ra rb c => exact .inl (cmp ra rb _)
  | jeq ra b c =>
    refine .inl (reg ra _ fun j => ?_)
    split
    · exact jump _
    · exact ⟨_, rfl⟩
  | aloc ra b c =>
    rcases withReg_cases ra s (fun i => if s.xInt i < 0 then
      .next (s.raiseFault .negativeAllocation) else heapGrow (s.xInt i).toNat s) with
      ⟨-, h⟩ | ⟨j, -, h⟩
    · exact .inl ⟨_, h⟩
    · by_cases hneg : s.xInt j < 0
      · rw [if_pos hneg] at h; exact .inl ⟨_, h⟩
      · rw [if_neg hneg] at h
        cases hg : s.heapMayGrow (s.xInt j).toNat with
        | true => exact .inl ⟨_, h.trans ((heapGrow_next_iff _ _ _).2 ⟨hg, rfl⟩)⟩
        | false =>
          refine .inr ⟨⟨ra, b, c, rfl⟩, fun hn => ?_, h.trans (heapGrow_refused _ _ hg)⟩
          rw [heapMayGrow_of_unbounded _ _ hn] at hg; cases hg
  | inc ra b c => exact .inl (reg ra _ fun d => ⟨_, rfl⟩)
  | dec ra b c => exact .inl (reg ra _ fun d => ⟨_, rfl⟩)

/-! ## One step -/

theorem step_of_halted {o : HaltOutcome} (h : s.run = .halted o) : step s = .next s := by
  simp [step, cycle, h]

theorem step_of_pastEnd (hr : s.run = .running) (h : s.program.length < s.pc) :
    step s = .next (s.raiseFault .programCounterOverflow) := by
  simp [step, cycle, hr, fetch_of_gt h]

theorem step_of_end (hr : s.run = .running) (h : s.pc = s.program.length) :
    step s = .next (s.halt .haltedOnExhaustion) := by
  simp [step, cycle, hr, fetch_of_eq h]

theorem step_of_fetched {I : Instruction} (hr : s.run = .running)
    (h : s.program[s.pc]? = some I) : step s = runInstruction I (s.setPc (s.pc + 1)) := by
  simp [step, cycle, hr, fetch_of_getElem? h]

theorem runInstruction_of_some {I : Instruction} {i : Instr} (h : I.instr? = some i) :
    runInstruction I s = exec i s := by
  simp [runInstruction, h]

theorem runInstruction_of_none {I : Instruction} (h : I.instr? = none) :
    runInstruction I s = .next (s.halt .haltedOnIllegalOpcode) := by
  simp [runInstruction, h, execIllegal]

/-- Everything a step can do (R115): nothing when Halted; else a failed fetch, an ILLEGAL, or the
instruction fetched, run on the state with the pc advanced. -/
theorem step_cases (s : State) :
    (∃ o, s.run = .halted o ∧ step s = .next s) ∨
    (s.run = .running ∧ s.program.length < s.pc ∧
      step s = .next (s.raiseFault .programCounterOverflow)) ∨
    (s.run = .running ∧ s.pc = s.program.length ∧
      step s = .next (s.halt .haltedOnExhaustion)) ∨
    (∃ I, s.run = .running ∧ s.program[s.pc]? = some I ∧ I.instr? = none ∧
      step s = .next ((s.setPc (s.pc + 1)).halt .haltedOnIllegalOpcode)) ∨
    (∃ I i, s.run = .running ∧ s.program[s.pc]? = some I ∧ I.instr? = some i ∧
      step s = exec i (s.setPc (s.pc + 1))) := by
  cases hr : s.run with
  | halted o => exact .inl ⟨o, rfl, step_of_halted hr⟩
  | running =>
    rcases fetch_cases s with ⟨I, hI, -, -⟩ | ⟨h, -⟩ | ⟨h, -⟩
    · have hs := step_of_fetched hr hI
      cases hi : I.instr? with
      | none => exact .inr (.inr (.inr (.inl ⟨I, rfl, hI, hi, hs.trans (runInstruction_of_none hi)⟩)))
      | some i =>
        exact .inr (.inr (.inr (.inr ⟨I, i, rfl, hI, hi, hs.trans (runInstruction_of_some hi)⟩)))
    · exact .inr (.inr (.inl ⟨rfl, h, step_of_end hr h⟩))
    · exact .inr (.inl ⟨rfl, h, step_of_pastEnd hr h⟩)

end Sys2Proof.Machine
end

