-- ==== Sys2Proof/Laws/PerInstr.lean ====
section
/-!
SUPPORT. Facts about every instruction as written, one lemma per constructor of Instr.
-/

/-! ## GroupShape: the encoding of an instruction is one group whose first byte is its opcode's code
(30_encoding.md rules R72, R73, R83). -/

namespace Sys2Proof.Laws.GroupShape

/-- The encoding is four bytes, and the first is the code of the instruction's opcode. -/
def Statement (i : Instr) : Prop :=
  ∃ b1 b2 b3, (i.toInstruction.opcode.toCode?).map (fun b0 => [b0, b1, b2, b3]) = some (encode i)

theorem hlt (a b c : Slot) : Statement (.hlt a b c) := ⟨_, _, _, rfl⟩
theorem load (rd imm c : Slot) : Statement (.load rd imm c) := ⟨_, _, _, rfl⟩
theorem add (ra rb rd : Slot) : Statement (.add ra rb rd) := ⟨_, _, _, rfl⟩
theorem sub (ra rb rd : Slot) : Statement (.sub ra rb rd) := ⟨_, _, _, rfl⟩
theorem mul (ra rb rd : Slot) : Statement (.mul ra rb rd) := ⟨_, _, _, rfl⟩
theorem div (ra rb rd : Slot) : Statement (.div ra rb rd) := ⟨_, _, _, rfl⟩
theorem jmp (ra b c : Slot) : Statement (.jmp ra b c) := ⟨_, _, _, rfl⟩
theorem jmpf (ra b c : Slot) : Statement (.jmpf ra b c) := ⟨_, _, _, rfl⟩
theorem jmpb (ra b c : Slot) : Statement (.jmpb ra b c) := ⟨_, _, _, rfl⟩
theorem eq (ra rb c : Slot) : Statement (.eq ra rb c) := ⟨_, _, _, rfl⟩
theorem neq (ra rb c : Slot) : Statement (.neq ra rb c) := ⟨_, _, _, rfl⟩
theorem gt (ra rb c : Slot) : Statement (.gt ra rb c) := ⟨_, _, _, rfl⟩
theorem lt (ra rb c : Slot) : Statement (.lt ra rb c) := ⟨_, _, _, rfl⟩
theorem gtq (ra rb c : Slot) : Statement (.gtq ra rb c) := ⟨_, _, _, rfl⟩
theorem ltq (ra rb c : Slot) : Statement (.ltq ra rb c) := ⟨_, _, _, rfl⟩
theorem jeq (ra b c : Slot) : Statement (.jeq ra b c) := ⟨_, _, _, rfl⟩
theorem aloc (ra b c : Slot) : Statement (.aloc ra b c) := ⟨_, _, _, rfl⟩
theorem inc (ra b c : Slot) : Statement (.inc ra b c) := ⟨_, _, _, rfl⟩
theorem dec (ra b c : Slot) : Statement (.dec ra b c) := ⟨_, _, _, rfl⟩

end Sys2Proof.Laws.GroupShape
end

