-- ==== Sys2Proof/Tests/Slice0.lean ====
section
/-!
SUPPORT. The model's own tests, and a witness for each statement that has hypotheses. Expected values
are those of spec/95_test_vectors.md and of the tables and examples of the rules cited; the words are
written out from 30_encoding.md rule R95.
-/

namespace Sys2Proof.Tests

open Sys2Proof.Machine

/-! ## Helpers -/

/-- The set-up of 95_test_vectors.md sections 2.4 to 2.6: x[0] = a, x[1] = b, and the instruction at
index 2, which is the pc. -/
def prep (a b : Int) (I : Instruction) : State :=
  { State.reset with
    regs := ((Vector.replicate 32 0).set 0 (BitVec.ofInt 32 a)).set 1 (BitVec.ofInt 32 b)
    pc := 2
    program := [Instruction.illegalZero, Instruction.illegalZero, I] }

/-- The set-up with the flag true. -/
def prepSet (a b : Int) (I : Instruction) : State := { prep a b I with equal := true }

/-- The set-up with a machine whose heap holds at most `bound` bytes. -/
def prepBound (bound : Nat) (a : Int) (I : Instruction) : State :=
  { prep a 0 I with capacity := { Config.default with heapMax := some bound } }

/-- The outcome is a next state with the property `p`. -/
def ends (o : Host.Outcome State Fault Refusal) (p : State → Bool) : Bool :=
  match o with
  | .next t => p t
  | .fault _ => false
  | .refused _ => false

/-- One step from `s` ends in a next state with the property `p`. -/
def steps (s : State) (p : State → Bool) : Bool := ends (step s) p

/-- The signed value of a register. -/
def val (s : State) (i : Fin 32) : Int := (s.x i).toInt

/-! ## WellFormed: each check refuses an ill-formed instruction (R83) -/

theorem test_wf_first_slot : (Instr.inc 256 0 0).wellFormed = false := by decide
theorem test_wf_first_slot_negative : (Instr.add (-1) 0 0).wellFormed = false := by decide
theorem test_wf_second_slot : (Instr.eq 0 256 0).wellFormed = false := by decide
theorem test_wf_third_slot : (Instr.add 0 0 256).wellFormed = false := by decide
theorem test_wf_load_register : (Instr.load 256 0 0).wellFormed = false := by decide
theorem test_wf_load_immediate : (Instr.load 0 65536 0).wellFormed = false := by decide
theorem test_wf_load_negative : (Instr.load 0 (-5) 0).wellFormed = false := by decide
theorem test_wf_load_third_slot : (Instr.load 0 5 1).wellFormed = false := by decide
theorem test_wf_boundary :
    (Instr.load 255 65535 0).wellFormed = true ∧ (Instr.hlt 255 255 255).wellFormed = true := by
  decide

/-! ## Binary encodings, one word for every constructor (R73, R76, R95) -/

theorem test_word_hlt : decodeTableWord 32 0x00FFFFFF = some (.hlt 255 255 255) := by decide
theorem test_word_load : decodeTableWord 32 0x01051234 = some (.load 5 4660 0) := by decide
theorem test_word_add : decodeTableWord 32 0x02010203 = some (.add 1 2 3) := by decide
theorem test_word_sub : decodeTableWord 32 0x03010203 = some (.sub 1 2 3) := by decide
theorem test_word_mul : decodeTableWord 32 0x04010203 = some (.mul 1 2 3) := by decide
theorem test_word_div : decodeTableWord 32 0x05010203 = some (.div 1 2 3) := by decide
theorem test_word_jmp : decodeTableWord 32 0x0603AABB = some (.jmp 3 170 187) := by decide
theorem test_word_jmpf : decodeTableWord 32 0x07040000 = some (.jmpf 4 0 0) := by decide
theorem test_word_jmpb : decodeTableWord 32 0x08020000 = some (.jmpb 2 0 0) := by decide
theorem test_word_eq : decodeTableWord 32 0x0900FF00 = some (.eq 0 255 0) := by decide
theorem test_word_neq : decodeTableWord 32 0x0A010200 = some (.neq 1 2 0) := by decide
theorem test_word_gt : decodeTableWord 32 0x0B010200 = some (.gt 1 2 0) := by decide
theorem test_word_lt : decodeTableWord 32 0x0C010200 = some (.lt 1 2 0) := by decide
theorem test_word_gtq : decodeTableWord 32 0x0D010200 = some (.gtq 1 2 0) := by decide
theorem test_word_ltq : decodeTableWord 32 0x0E010200 = some (.ltq 1 2 0) := by decide
theorem test_word_jeq : decodeTableWord 32 0x0F280000 = some (.jeq 40 0 0) := by decide
theorem test_word_aloc : decodeTableWord 32 0x10200000 = some (.aloc 32 0 0) := by decide
theorem test_word_inc : decodeTableWord 32 0x11020000 = some (.inc 2 0 0) := by decide
theorem test_word_dec : decodeTableWord 32 0x121F0000 = some (.dec 31 0 0) := by decide
theorem test_word_illegal :
    decodeTableWord 32 0x13000000 = none ∧ decodeTableWord 32 0xFF010203 = none := by decide

/-- 95_test_vectors.md section 2.1. -/
theorem test_stream :
    decodeBinary [] = [] ∧ decodeBinary [0x13] = [⟨.illegal, 0, 0, 0⟩] ∧
    decodeBinary [0x01, 0x05, 0x12] = [⟨.load, 5, 4608, 0⟩] ∧
    decodeBinary [0x01, 0x05, 0x12, 0x34, 0x02] = [⟨.load, 5, 4660, 0⟩, ⟨.add, 0, 0, 0⟩] ∧
    decodeBinary [0xFF, 0x01, 0x02, 0x03] = [⟨.illegal, 1, 2, 3⟩] ∧
    decodeBinary [0x01, 0x00, 0xFF, 0xFF] = [⟨.load, 0, 65535, 0⟩] ∧
    decodeBinary [0x0F, 0x03, 0x00, 0x00, 0x10, 0x05] = [⟨.jeq, 3, 0, 0⟩, ⟨.aloc, 5, 0, 0⟩] := by
  decide

/-- The byte streams of 95_test_vectors.md V3c and V5b, from their texts. -/
theorem test_encode :
    encodeProgram [.load 0 100 0, .load 1 10 0, .div 0 1 2] =
      [0x01, 0x00, 0x00, 0x64, 0x01, 0x01, 0x00, 0x0A, 0x05, 0x00, 0x01, 0x02] ∧
    encodeInstruction? ⟨.inc, 999, 0, 0⟩ = none := by decide

/-! ## Text (95_test_vectors.md section 2.2) -/

theorem test_line_plain :
    decodeLine "  LOAD\t$0   #500  ".toList = ⟨.load, 0, 500, 0⟩ ∧
    decodeLine "load $0 #500".toList = ⟨.illegal, 0, 0, 0⟩ ∧
    decodeLine "LOAD $007 #0010".toList = ⟨.load, 7, 10, 0⟩ := by decide

theorem test_line_immediates :
    decodeLine "LOAD $0 #-5".toList = ⟨.load, 0, -5, 0⟩ ∧
    decodeLine "LOAD $0 #+5".toList = ⟨.illegal, 0, 0, 0⟩ ∧
    decodeLine "LOAD $0 #-".toList = ⟨.illegal, 0, 0, 0⟩ ∧
    decodeLine "LOAD $-1 #5".toList = ⟨.illegal, 0, 0, 0⟩ := by decide

theorem test_line_range :
    decodeLine "LOAD $0 #2147483647".toList = ⟨.load, 0, 2147483647, 0⟩ ∧
    decodeLine "LOAD $0 #2147483648".toList = ⟨.illegal, 0, 0, 0⟩ ∧
    decodeLine "LOAD $0 #-2147483648".toList = ⟨.load, 0, -2147483648, 0⟩ ∧
    decodeLine "LOAD $0 #-2147483649".toList = ⟨.illegal, 0, 0, 0⟩ ∧
    decodeLine "LOAD $2147483648 #1".toList = ⟨.illegal, 0, 0, 0⟩ := by decide

theorem test_line_tokens :
    decodeLine "loop: ADD $0 $1 $2".toList = ⟨.add, 0, 1, 2⟩ ∧
    decodeLine "ADD $0 $1 $2 .dir @x".toList = ⟨.add, 0, 1, 2⟩ ∧
    decodeLine "$0 ADD $1 $2".toList = ⟨.add, 0, 1, 2⟩ ∧
    decodeLine "ADD $0 $1 $2 $3".toList = ⟨.illegal, 0, 0, 0⟩ ∧
    decodeLine "ADD ADD $0".toList = ⟨.illegal, 0, 0, 0⟩ ∧
    decodeLine "ADD $1: $2 $3".toList = ⟨.illegal, 0, 0, 0⟩ ∧
    decodeLine "HLT\r".toList = ⟨.hlt, 0, 0, 0⟩ := by decide

theorem test_text :
    decodeText "LOAD $0 #1\n\nHLT\n".toList =
      [⟨.load, 0, 1, 0⟩, ⟨.illegal, 0, 0, 0⟩, ⟨.hlt, 0, 0, 0⟩] ∧
    decodeText "LOAD $0 #1\nHLT".toList = [⟨.load, 0, 1, 0⟩, ⟨.hlt, 0, 0, 0⟩] ∧
    decodeText "\n".toList = [⟨.illegal, 0, 0, 0⟩] := by decide

/-! ## One step of each instruction -/

/-- V8b and V8c. -/
theorem test_hlt : steps (State.boot [0x00, 0, 0, 0]) (fun t =>
    decide (t = { State.boot [0x00, 0, 0, 0] with pc := 1, run := .halted .haltedNormally })) =
      true := by decide

theorem test_illegal : steps (State.boot [0x13, 0, 0, 0]) (fun t =>
    decide (t.outcome = some .haltedOnIllegalOpcode ∧ t.pc = 1)) = true := by decide

/-- Section 2.3. -/
theorem test_load_zero_extends : steps (State.boot [0x01, 0x00, 0x80, 0x00]) (fun t =>
    decide (val t 0 = 32768 ∧ t.pc = 1 ∧ t.runState = .running)) = true := by decide

theorem test_load_out_of_range : steps (State.boot [0x01, 0x20, 0x00, 0x01]) (fun t =>
    decide (t.outcome = some (.haltedOnFault .registerOutOfRange) ∧ t.regs = State.reset.regs)) =
      true := by decide

/-- Section 2.4. -/
theorem test_add_wraps : steps (prep (-2147483648) (-1) ⟨.add, 0, 1, 2⟩) (fun t =>
    decide (val t 2 = 2147483647 ∧ t.pc = 3 ∧ val t 0 = -2147483648)) = true := by decide

theorem test_add_source_is_destination : steps (prep 4 21 ⟨.add, 1, 1, 1⟩) (fun t =>
    decide (val t 1 = 42)) = true := by decide

theorem test_sub_order : steps (prep 5 7 ⟨.sub, 0, 1, 2⟩) (fun t =>
    decide (val t 2 = -2)) = true := by decide

theorem test_sub_wraps : steps (prep 0 (-2147483648) ⟨.sub, 0, 1, 2⟩) (fun t =>
    decide (val t 2 = -2147483648)) = true := by decide

theorem test_mul_wraps : steps (prep 46341 46341 ⟨.mul, 0, 1, 2⟩) (fun t =>
    decide (val t 2 = -2147479015)) = true := by decide

theorem test_mul_signed : steps (prep (-3) 7 ⟨.mul, 0, 1, 2⟩) (fun t =>
    decide (val t 2 = -21)) = true := by decide

theorem test_div_truncates : steps (prep (-7) 2 ⟨.div, 0, 1, 2⟩) (fun t =>
    decide (val t 2 = -3 ∧ t.remainder.toNat = 4294967295)) = true := by decide

theorem test_div_wraps : steps (prep (-2147483648) (-1) ⟨.div, 0, 1, 2⟩) (fun t =>
    decide (val t 2 = -2147483648 ∧ t.remainder = 0 ∧ t.runState = .running)) = true := by decide

theorem test_inc_wraps : steps (prep 2147483647 0 ⟨.inc, 0, 0, 0⟩) (fun t =>
    decide (val t 0 = -2147483648)) = true := by decide

theorem test_dec_from_zero : steps (State.boot [0x12, 0x05, 0, 0]) (fun t =>
    decide (val t 5 = -1)) = true := by decide

/-- Section 2.5; the rows where a signed and an unsigned comparison differ. -/
theorem test_eq : steps (prep 10 10 ⟨.eq, 0, 1, 0⟩) (fun t => t.equal) = true ∧
    steps (prepSet 10 20 ⟨.eq, 0, 1, 0⟩) (fun t => !t.equal) = true := by decide

theorem test_neq : steps (prep (-1) 0 ⟨.neq, 0, 1, 0⟩) (fun t => t.equal) = true ∧
    steps (prepSet 10 10 ⟨.neq, 0, 1, 0⟩) (fun t => !t.equal) = true := by decide

theorem test_gt : steps (prep 0 (-1) ⟨.gt, 0, 1, 0⟩) (fun t => t.equal) = true ∧
    steps (prepSet 10 10 ⟨.gt, 0, 1, 0⟩) (fun t => !t.equal) = true := by decide

theorem test_lt : steps (prep (-1) 0 ⟨.lt, 0, 1, 0⟩) (fun t => t.equal) = true ∧
    steps (prepSet 10 10 ⟨.lt, 0, 1, 0⟩) (fun t => !t.equal) = true := by decide

theorem test_gtq : steps (prep 10 10 ⟨.gtq, 0, 1, 0⟩) (fun t => t.equal) = true ∧
    steps (prepSet (-1) 0 ⟨.gtq, 0, 1, 0⟩) (fun t => !t.equal) = true := by decide

theorem test_ltq : steps (prep 10 10 ⟨.ltq, 0, 1, 0⟩) (fun t => t.equal) = true ∧
    steps (prepSet 0 (-1) ⟨.ltq, 0, 1, 0⟩) (fun t => !t.equal) = true := by decide

/-- Section 2.6, the jump at index 2: its own position counts as 3. -/
theorem test_jmp : steps (prep 9 0 ⟨.jmp, 0, 0, 0⟩) (fun t =>
    decide (t.pc = 9 ∧ t.runState = .running)) = true := by decide

theorem test_jmp_below_zero : steps (prep (-1) 0 ⟨.jmp, 0, 0, 0⟩) (fun t =>
    decide (t.pc = 3 ∧ t.outcome = some (.haltedOnFault .programCounterUnderflow))) = true := by
  decide

theorem test_jmpf : steps (prep 4 0 ⟨.jmpf, 0, 0, 0⟩) (fun t => decide (t.pc = 7)) = true := by
  decide

theorem test_jmpf_below_zero : steps (prep (-4) 0 ⟨.jmpf, 0, 0, 0⟩) (fun t =>
    decide (t.pc = 3 ∧ t.outcome = some (.haltedOnFault .programCounterUnderflow))) = true := by
  decide

theorem test_jmpb : steps (prep 3 0 ⟨.jmpb, 0, 0, 0⟩) (fun t => decide (t.pc = 0)) = true := by
  decide

theorem test_jmpb_negative_distance : steps (prep (-2) 0 ⟨.jmpb, 0, 0, 0⟩) (fun t =>
    decide (t.pc = 5)) = true := by decide

theorem test_jeq_taken : steps (prepSet 6 0 ⟨.jeq, 0, 0, 0⟩) (fun t =>
    decide (t.pc = 6 ∧ t.equal = true)) = true := by decide

theorem test_jeq_not_taken : steps (prep (-1) 0 ⟨.jeq, 0, 0, 0⟩) (fun t =>
    decide (t.pc = 3 ∧ t.runState = .running)) = true ∧
    steps (prep 0 0 ⟨.jeq, 40, 0, 0⟩) (fun t =>
      decide (t.outcome = some (.haltedOnFault .registerOutOfRange))) = true := by decide

/-- Section 2.7, and the bound of HEAP_MAX (93 U6). -/
theorem test_aloc : steps (prep 16 0 ⟨.aloc, 0, 0, 0⟩) (fun t =>
    decide (t.heap.len = 16 ∧ t.heap.byte? 15 = some 0 ∧ t.heap.byte? 16 = none)) = true := by decide

theorem test_aloc_negative : steps (prep (-1) 0 ⟨.aloc, 0, 0, 0⟩) (fun t =>
    decide (t.heap.len = 0 ∧ t.outcome = some (.haltedOnFault .negativeAllocation))) = true := by
  decide

/-! ## Fetch, Halted state, heap primitives, host -/

theorem test_exhaustion : steps State.reset (fun t =>
    decide (t = { State.reset with run := .halted .haltedOnExhaustion })) = true := by decide

/-- J2's third step. -/
theorem test_past_end : steps { State.boot [0x06, 0, 0, 0] with pc := 9 } (fun t =>
    decide (t.pc = 9 ∧ t.outcome = some (.haltedOnFault .programCounterOverflow))) = true := by
  decide

theorem test_with_fetch_word :
    steps (State.reset.withFetchWord 32 0x01051234) (fun t => decide (val t 5 = 4660)) = true ∧
    ((prep 0 0 Instruction.illegalZero).withFetchWord 32 0x01051234).program.length = 3 := by
  decide

/-- 20_memory.md R54 and R55: a byte put back to 0 leaves no cell. -/
theorem test_heap_cells :
    Memory.placeAll [] 2 [7, 0, 9] = [(2, 7), (4, 9)] ∧
    Memory.placeAll [(2, 7), (4, 9)] 3 [5, 0] = [(2, 7), (3, 5)] ∧
    Memory.lookup [(2, 7), (3, 5)] 3 = 5 ∧ Memory.lookup [(2, 7), (3, 5)] 4 = 0 := by decide

theorem test_heap_wf :
    (Memory.mk 5 [(2, 7), (4, 9)]).wf = true ∧ (Memory.mk 4 [(2, 7), (4, 9)]).wf = false ∧
    (Memory.mk 5 [(2, 0)]).wf = false ∧ (Memory.mk 5 [(4, 9), (2, 7)]).wf = false := by decide

/-- H1: an append does not wake a Halted engine. -/
theorem test_append_does_not_wake :
    ends (hostAppend ⟨.hlt, 0, 0, 0⟩ { State.boot [0x01, 0, 0, 1] with
      pc := 1, run := .halted .haltedOnExhaustion }) (fun t =>
        decide (t.program.length = 2) && steps t (fun u =>
          decide (u = t ∧ u.outcome = some .haltedOnExhaustion))) = true := by decide

/-! ## Witnesses: concrete data that meet the hypotheses of each statement together

One theorem a statement, at boundary values of each clause. -/

/-- A Halted state. -/
abbrev halted (k : FaultKind) : State := { State.boot [] with run := .halted (.haltedOnFault k) }

theorem witness_OpcodeMappingsAgree :
    Opcode.toCode? .hlt = some 0 ∧ Opcode.toCode? .dec = some 18 ∧
    Opcode.mnemonic? .dec = some ['D', 'E', 'C'] ∧ (18 : Byte).toNat ≤ 18 ∧
    19 ≤ (19 : Byte).toNat ∧ ∀ op, Opcode.mnemonic? op ≠ some ['F', 'O', 'O'] := by
  refine ⟨by decide, by decide, by decide, by decide, by decide, fun op => ?_⟩
  cases op <;> decide

theorem witness_OpcodeByteSelectsOperation :
    Opcode.toCode? .dec = some 18 ∧
    ∀ op c, Opcode.toCode? op = some c →
      (0x13000000 : Word) &&& 0xFF000000#32 ≠ BitVec.ofNat 32 (c.toNat * 2 ^ 24) := by
  refine ⟨by decide, fun op c h => ?_⟩
  cases op <;> simp [Opcode.toCode?, opcodeTable] at h <;> subst h <;> decide

theorem witness_BytesFillSlots : (0 : Byte) ≠ 1 ∧ (255 : Byte) ≠ 1 := by decide

theorem witness_StreamDecodesGroupByGroup :
    0 < (([0x11] : List Byte).length + 3) / 4 ∧
    1 < (([0x01, 0x05, 0x12, 0x34, 0x02] : List Byte).length + 3) / 4 ∧
    ∃ t, loadBinary [0x11] State.reset = .next t := ⟨by decide, by decide, _, rfl⟩

theorem witness_ProgramSurvivesEncodeThenDecode :
    ∀ i ∈ [Instr.load 255 65535 0, .hlt 255 255 255, .dec 0 0 0], i.wellFormed = true := by decide

theorem witness_GroupSurvivesDecodeThenEncode :
    (18 : Byte).toNat ≤ 18 ∧ 19 ≤ (19 : Byte).toNat ∧
    encodeInstruction? ⟨.load, 255, 65535, 0⟩ = some [0x01, 0xFF, 0xFF, 0xFF] := by decide

/-- The tokens of a line. -/
abbrev tokens (line : String) : List Token := (splitTokens line.toList).map classify

theorem witness_LineDecodesByItsTokens :
    ((tokens "ADD $0 $1 #2").filterMap Token.mnemonic? = [['A', 'D', 'D']] ∧
      Opcode.fromMnemonic ['A', 'D', 'D'] ≠ .illegal ∧ Token.malformed ∉ tokens "ADD $0 $1 #2" ∧
      ((tokens "ADD $0 $1 #2").filterMap Token.operand?).length ≤ 3) ∧
    (tokens "$1 $2").filterMap Token.mnemonic? = [] ∧
    Token.malformed ∈ tokens "ADD $ $1 $2" ∧
    3 < ((tokens "ADD $0 $1 $2 $3").filterMap Token.operand?).length := by decide

theorem witness_DirectiveTokensAreInert :
    (".dir".toList ≠ [] ∧ ".dir".toList.all (fun ch => isSpace ch == false) = true ∧
      ".dir".toList.head? = some '.') ∧
    ("@x".toList.all (fun ch => isSpace ch == false) = true ∧ "@x".toList.head? = some '@') ∧
    ("loop:".toList.all (fun ch => isSpace ch == false) = true ∧
      "loop:".toList.getLast? = some ':' ∧ "loop:".toList.head? ≠ some '$' ∧
      "loop:".toList.head? ≠ some '#') := by decide

/-- The digits of 2^31 - 1 with a leading zero, of 2^31 and of 2^31 + 1: each range has a member. -/
theorem witness_NumberTokensAreDecimal :
    ([0, 2, 1, 4, 7, 4, 8, 3, 6, 4, 7] : List (Fin 10)).foldl (fun n d => n * 10 + d.val) 0 =
      2 ^ 31 - 1 ∧
    ([2, 1, 4, 7, 4, 8, 3, 6, 4, 8] : List (Fin 10)).foldl (fun n d => n * 10 + d.val) 0 = 2 ^ 31 ∧
    ([2, 1, 4, 7, 4, 8, 3, 6, 4, 9] : List (Fin 10)).foldl (fun n d => n * 10 + d.val) 0 =
      2 ^ 31 + 1 := by decide

theorem witness_TextDecodesLineByLine :
    "HLT".toList ≠ [] ∧ "HLT".toList.all (fun ch => ch != '\n') = true := by decide

theorem witness_StepRunsDecodedInstruction :
    (State.boot [0x02, 0, 1, 2]).fetches (.add 0 1 2) ∧
    ((prep 0 0 ⟨.add, 0, 1, 2⟩).run = .running ∧ (Instr.add 0 1 2).wellFormed = true ∧
      ([0xFF, 0, 0, 0, 0xFF, 0, 0, 0] : List Byte).length = 4 * (prep 0 0 ⟨.add, 0, 1, 2⟩).pc ∧
      (prep 0 0 ⟨.add, 0, 1, 2⟩).program =
        decodeBinary ([0xFF, 0, 0, 0, 0xFF, 0, 0, 0] ++ encode (.add 0 1 2) ++ [])) ∧
    decodeTableWord 32 0x02000102 = some (.add 0 1 2) := by
  refine ⟨⟨rfl, rfl⟩, ⟨rfl, rfl, rfl, ?_⟩, rfl⟩
  decide

theorem witness_IllegalOpcodeHalts :
    (State.boot [0x13, 1, 2, 3]).run = .running ∧
    (State.boot [0x13, 1, 2, 3]).program[(State.boot [0x13, 1, 2, 3]).pc]? = some ⟨.illegal, 1, 2, 3⟩ ∧
    19 ≤ (255 : Byte).toNat ∧
    (tokens "FOO $1").filterMap Token.mnemonic? = [['F', 'O', 'O']] ∧
    Opcode.fromMnemonic ['F', 'O', 'O'] = .illegal := by decide

theorem witness_ExhaustionHalts :
    State.reset.run = .running ∧ State.reset.pc = State.reset.program.length := by decide

/-- J2: at the jump, and past the end; and at the end. -/
theorem witness_FetchPastEndFaults :
    (∃ t, step (prep 9 0 ⟨.jmp, 0, 0, 0⟩) = .next t ∧ t.program.length < t.pc ∧
      t.run = .running ∧ (prep 9 0 ⟨.jmp, 0, 0, 0⟩).pc ≤ (prep 9 0 ⟨.jmp, 0, 0, 0⟩).program.length) ∧
    (∃ t, step State.reset = .next t ∧ State.reset.pc = State.reset.program.length) :=
  ⟨⟨_, rfl, by decide +kernel, rfl, by decide⟩, ⟨_, rfl, rfl⟩⟩

theorem witness_HaltedEngineStays :
    (halted .divisionByZero).run = .halted (.haltedOnFault .divisionByZero) ∧
    ∃ t, hostAppend ⟨.hlt, 0, 0, 0⟩ (halted .divisionByZero) = .next t := ⟨rfl, _, rfl⟩

/-- No bound, and a state the second clause's second case is about. -/
theorem witness_StepIsTotal :
    State.reset.capacity.heapMax = none ∧
    step (prepBound 15 16 ⟨.aloc, 0, 0, 0⟩) = .refused .heapPastMax := ⟨rfl, rfl⟩

theorem witness_RegisterSlotsAreChecked :
    ((32 : Slot) ∈ registerSlots (.add 0 1 32) ∧ (32 : Slot).namesNone ∧ (-1 : Slot).namesNone) ∧
    (State.reset.run = .running ∧ (∀ v ∈ registerSlots (.add 0 31 2), ¬ v.namesNone) ∧
      ∃ t, exec (.add 0 31 2) State.reset = .next t) := by
  unfold Slot.namesNone
  refine ⟨by decide, rfl, fun v hv => ?_, _, rfl⟩
  simp only [registerSlots, List.mem_cons, List.not_mem_nil, or_false] at hv
  rcases hv with rfl | rfl | rfl <;> decide

theorem witness_HaltingStepWritesNothingElse :
    (∃ t, step (prep 0 0 ⟨.hlt, 0, 0, 0⟩) = .next t ∧ t.runState = .halted) ∧
    (∃ t, step State.reset = .next t ∧ t.runState = .halted) := ⟨⟨_, rfl, rfl⟩, ⟨_, rfl, rfl⟩⟩

/-- Every outcome and every fault kind, each out of a Running state. -/
theorem witness_OutcomesHaveTheirCauses :
    (∃ t, step (prep 0 0 ⟨.hlt, 0, 0, 0⟩) = .next t ∧ t.outcome = some .haltedNormally) ∧
    (∃ t, step (prep 0 0 ⟨.illegal, 0, 0, 0⟩) = .next t ∧
      t.outcome = some .haltedOnIllegalOpcode) ∧
    (∃ t, step State.reset = .next t ∧ t.outcome = some .haltedOnExhaustion) ∧
    (∃ t, step { State.reset with pc := 1 } = .next t ∧
      t.outcome = some (.haltedOnFault .programCounterOverflow)) ∧
    (∃ t, step (prep 0 0 ⟨.inc, 999, 0, 0⟩) = .next t ∧
      t.outcome = some (.haltedOnFault .registerOutOfRange)) ∧
    (∃ t, step (prep 0 0 ⟨.div, 0, 1, 2⟩) = .next t ∧
      t.outcome = some (.haltedOnFault .divisionByZero)) ∧
    (∃ t, step (prep (-4) 0 ⟨.jmpf, 0, 0, 0⟩) = .next t ∧
      t.outcome = some (.haltedOnFault .programCounterUnderflow)) ∧
    (∃ t, step (prep (-1) 0 ⟨.aloc, 0, 0, 0⟩) = .next t ∧
      t.outcome = some (.haltedOnFault .negativeAllocation)) :=
  ⟨⟨_, rfl, rfl⟩, ⟨_, rfl, rfl⟩, ⟨_, rfl, rfl⟩, ⟨_, rfl, rfl⟩, ⟨_, rfl, rfl⟩, ⟨_, rfl, rfl⟩,
    ⟨_, rfl, rfl⟩, ⟨_, rfl, rfl⟩⟩

theorem witness_NonJumpsAdvanceThePc :
    (prep 0 0 ⟨.add, 0, 1, 2⟩).fetches (.add 0 1 2) ∧ (Instr.add 0 1 2).isJump = false ∧
    ∃ t, step (prep 0 0 ⟨.add, 0, 1, 2⟩) = .next t := ⟨⟨rfl, rfl⟩, rfl, _, rfl⟩

/-- Slots at both ends of the register range and just outside it. -/
theorem witness_register_slots :
    (0 : Slot).names 0 ∧ (31 : Slot).names 31 ∧ (32 : Slot).namesNone ∧ (-1 : Slot).namesNone := by
  unfold Slot.names Slot.namesNone; decide

theorem witness_LoadWritesItsImmediate :
    0 ≤ (0 : Slot).toInt ∧ (31 : Slot).names 31 ∧ (32 : Slot).namesNone := by
  unfold Slot.names Slot.namesNone; decide

theorem witness_AddSubMulWriteWrappedResult :
    (0 : Slot).names 0 ∧ (31 : Slot).names 31 ∧ (31 : Slot).names 31 := by
  unfold Slot.names; decide

theorem witness_IncDecWriteWrappedResult : (31 : Slot).names 31 := by unfold Slot.names; decide

/-- The pair that wraps, and a pair that does not. -/
theorem witness_DivWritesQuotientAndRemainder :
    (0 : Slot).names 0 ∧ (1 : Slot).names 1 ∧
    (val (prep (-2147483648) (-1) ⟨.div, 0, 1, 0⟩) 0 = -2 ^ 31 ∧
      val (prep (-2147483648) (-1) ⟨.div, 0, 1, 0⟩) 1 = -1) ∧
    (val (prep (-2147483648) 1 ⟨.div, 0, 1, 0⟩) 0 = -2 ^ 31 ∧
      val (prep (-2147483648) 1 ⟨.div, 0, 1, 0⟩) 1 ≠ -1 ∧
      val (prep (-2147483648) 1 ⟨.div, 0, 1, 0⟩) 1 ≠ 0) := by
  unfold Slot.names; decide

theorem witness_DivisionByZeroFaults :
    (0 : Slot).names 0 ∧ (1 : Slot).names 1 ∧ (2 : Slot).names 2 ∧
    val (prep 100 0 ⟨.div, 0, 1, 2⟩) 1 = 0 ∧
    (prep 100 0 ⟨.div, 0, 1, 2⟩).run = .running ∧
    ∃ t, exec (.div 0 1 2) (prep 100 0 ⟨.div, 0, 1, 2⟩) = .next t ∧
      t.outcome = some (.haltedOnFault .divisionByZero) := by
  refine ⟨?_, ?_, ?_, by decide, rfl, _, rfl, rfl⟩ <;> unfold Slot.names <;> decide

/-- Each target at 0, the lowest that does not fault; the flag set and clear. -/
theorem witness_JumpsWriteThePc :
    (0 : Slot).names 0 ∧ 0 ≤ val (prep 0 0 ⟨.jmp, 0, 0, 0⟩) 0 ∧
    0 ≤ (prep (-2) 0 ⟨.jmpf, 0, 0, 0⟩).pc + val (prep (-2) 0 ⟨.jmpf, 0, 0, 0⟩) 0 ∧
    0 ≤ (prep 2 0 ⟨.jmpb, 0, 0, 0⟩).pc - val (prep 2 0 ⟨.jmpb, 0, 0, 0⟩) 0 ∧
    (prepSet 0 0 ⟨.jeq, 0, 0, 0⟩).equal = true ∧ 0 ≤ val (prepSet 0 0 ⟨.jeq, 0, 0, 0⟩) 0 ∧
    (prep (-1) 0 ⟨.jeq, 0, 0, 0⟩).equal = false := by
  unfold Slot.names; decide

/-- Each target at -1, the greatest that faults. -/
theorem witness_JumpBelowZeroFaults :
    (0 : Slot).names 0 ∧ val (prep (-1) 0 ⟨.jmp, 0, 0, 0⟩) 0 < 0 ∧
    (prep (-3) 0 ⟨.jmpf, 0, 0, 0⟩).pc + val (prep (-3) 0 ⟨.jmpf, 0, 0, 0⟩) 0 < 0 ∧
    ((prep 3 0 ⟨.jmpb, 0, 0, 0⟩).pc : Int) < val (prep 3 0 ⟨.jmpb, 0, 0, 0⟩) 0 ∧
    (prepSet (-1) 0 ⟨.jeq, 0, 0, 0⟩).equal = true ∧ val (prepSet (-1) 0 ⟨.jeq, 0, 0, 0⟩) 0 < 0 := by
  unfold Slot.names; decide

theorem witness_ComparisonsWriteTheFlag : (0 : Slot).names 0 ∧ (31 : Slot).names 31 := by
  unfold Slot.names; decide

theorem witness_EqAndNeqCompareAllBits :
    0 ≤ (0 : Slot).toInt ∧ (0 : Slot).names 0 ∧ (31 : Slot).names 31 ∧
    ((0 : Slot).namesNone ∨ (255 : Slot).namesNone) := by
  unfold Slot.names Slot.namesNone; decide

theorem witness_ComparisonsAreComplementary : (0 : Slot).names 0 ∧ (1 : Slot).names 1 := by
  unfold Slot.names; decide

/-- Growth by 0 and up to the bound; a negative amount; no register. -/
theorem witness_AlocGrowsTheHeap :
    (0 : Slot).names 0 ∧ (32 : Slot).namesNone ∧
    ((prepBound 16 0 ⟨.aloc, 0, 0, 0⟩).heap.wf = true ∧
      val (prepBound 16 0 ⟨.aloc, 0, 0, 0⟩) 0 = 0) ∧
    (0 ≤ val (prepBound 16 16 ⟨.aloc, 0, 0, 0⟩) 0 ∧
      (prepBound 16 16 ⟨.aloc, 0, 0, 0⟩).capacity.heapMax = some 16 ∧
      (prepBound 16 16 ⟨.aloc, 0, 0, 0⟩).heap.len + val (prepBound 16 16 ⟨.aloc, 0, 0, 0⟩) 0 ≤ 16) ∧
    val (prep (-1) 0 ⟨.aloc, 0, 0, 0⟩) 0 < 0 := by
  unfold Slot.names Slot.namesNone; decide

/-- One byte past the bound. -/
theorem witness_AlocPastHeapMaxIsRefused :
    (0 : Slot).names 0 ∧ 0 ≤ val (prepBound 16 17 ⟨.aloc, 0, 0, 0⟩) 0 ∧
    (prepBound 16 17 ⟨.aloc, 0, 0, 0⟩).capacity.heapMax = some 16 ∧
    16 < (prepBound 16 17 ⟨.aloc, 0, 0, 0⟩).heap.len + val (prepBound 16 17 ⟨.aloc, 0, 0, 0⟩) 0 := by
  unfold Slot.names; decide

theorem witness_NegativeAllocationFaults :
    (0 : Slot).names 0 ∧ val (prep (-2147483648) 0 ⟨.aloc, 0, 0, 0⟩) 0 < 0 ∧
    ∃ t, exec (.aloc 0 0 0) (prep (-1) 0 ⟨.aloc, 0, 0, 0⟩) = .next t ∧
      t.outcome = some (.haltedOnFault .negativeAllocation) := by
  refine ⟨?_, by decide, _, rfl, rfl⟩; unfold Slot.names; decide

/-- A state with a heap of two bytes. -/
def twoBytes : State := { State.reset with heap := ⟨2, [(1, 9)]⟩ }

/-- In bounds up to the last byte, and one byte past it. -/
theorem witness_HeapReadAndWriteAgree :
    (twoBytes.heap.wf = true ∧ 1 ≤ ([5, 0] : List Byte).length ∧
      0 + ([5, 0] : List Byte).length ≤ twoBytes.heap.len) ∧
    twoBytes.heap.len < 1 + 2 ∧ twoBytes.heap.len < 1 + ([5, 0] : List Byte).length ∧
    ends (memWrite 0 [5, 0] twoBytes) (fun t => decide (t.heap = ⟨2, [(0, 5)]⟩)) = true := by decide

theorem witness_FlagIsTheComparisonsAndJeqs :
    (∃ t, step (prep 0 0 ⟨.eq, 0, 1, 0⟩) = .next t ∧ t.equal ≠ (prep 0 0 ⟨.eq, 0, 1, 0⟩).equal) ∧
    (¬ (Instr.eq 0 1 0).isJeq ∧ (∃ t, exec (.eq 0 1 0) State.reset = .next t) ∧
      (Instr.eq 0 1 0).isComparison = true ∧
      ∀ a ∈ registerSlots (.eq 0 1 0), ¬ Slot.namesNone a) := by
  refine ⟨⟨_, rfl, by decide⟩, ?_, ⟨_, rfl⟩, rfl, ?_⟩
  · rintro ⟨ra, b, c, h⟩; cases h
  · unfold Slot.namesNone
    intro a ha
    simp only [registerSlots, List.mem_cons, List.not_mem_nil, or_false] at ha
    rcases ha with rfl | rfl <;> decide

theorem witness_RemainderIsWrittenByDivAndReadByNone :
    ∃ t, step (prep 7 2 ⟨.div, 0, 1, 2⟩) = .next t ∧
      t.remainder ≠ (prep 7 2 ⟨.div, 0, 1, 2⟩).remainder := ⟨_, rfl, by decide⟩

theorem witness_ProgramStoreIsTheHosts :
    (∃ t, step (prep 0 0 ⟨.inc, 0, 0, 0⟩) = .next t) ∧
    (∃ t, hostReset [⟨.hlt, 0, 0, 0⟩] State.reset = .next t) ∧
    (∃ t, hostAppend ⟨.hlt, 0, 0, 0⟩ (prep 0 0 ⟨.inc, 0, 0, 0⟩) = .next t) ∧
    (prep 0 0 ⟨.inc, 0, 0, 0⟩).program[2]? = some ⟨.inc, 0, 0, 0⟩ ∧
    (∃ t, exec (.inc 0 0 0) State.reset = .next t) := by
  refine ⟨⟨_, rfl⟩, ⟨_, rfl⟩, ⟨_, rfl⟩, by decide, ⟨_, rfl⟩⟩

theorem witness_HeapOnlyGrows :
    ∃ t, (prep 16 0 ⟨.aloc, 0, 0, 0⟩).heap.wf = true ∧
      step (prep 16 0 ⟨.aloc, 0, 0, 0⟩) = .next t ∧ t.heap ≠ (prep 16 0 ⟨.aloc, 0, 0, 0⟩).heap :=
  ⟨_, rfl, rfl, by decide +kernel⟩

/-- A jump from the last index to the greatest relative target, out of a state with the invariant. -/
theorem witness_StepKeepsInvariant :
    (prep 2147483647 0 ⟨.jmpf, 0, 0, 0⟩).Inv ∧
    ∃ t, step (prep 2147483647 0 ⟨.jmpf, 0, 0, 0⟩) = .next t ∧ t.pc = 2147483650 :=
  ⟨⟨by decide, by decide, rfl, fun _ h => absurd h (Nat.not_lt_zero _), fun _ h => by cases h⟩,
    _, rfl, by decide⟩

theorem witness_HostOperationsKeepInvariant :
    (∃ t, hostReset [⟨.hlt, 0, 0, 0⟩] State.reset = .next t) ∧
    (∃ t, loadBinary [0x13] State.reset = .next t) ∧
    (∃ t, loadText "FOO".toList State.reset = .next t) ∧
    (State.reset.Inv ∧ ∃ t, hostAppend ⟨.hlt, 0, 0, 0⟩ State.reset = .next t) :=
  ⟨⟨_, rfl⟩, ⟨_, rfl⟩, ⟨_, rfl⟩,
    ⟨⟨by decide, by decide, rfl, fun _ h => absurd h (Nat.not_lt_zero _), fun _ h => by cases h⟩,
      _, rfl⟩⟩

/-- P4's last step. -/
theorem witness_HaltingInstructionIsBeforeThePc :
    ∃ t, (prep 7 0 ⟨.div, 0, 1, 2⟩).run = .running ∧
      step (prep 7 0 ⟨.div, 0, 1, 2⟩) = .next t ∧
      t.outcome = some (.haltedOnFault .divisionByZero) := ⟨_, rfl, rfl, rfl⟩

theorem witness_ResetStartsAtIndexZero :
    ∃ t, hostReset [⟨.inc, 0, 0, 0⟩] (halted .divisionByZero) = .next t ∧
      ([⟨.inc, 0, 0, 0⟩] : List Instruction)[0]? = some (Instr.inc 0 0 0).toInstruction :=
  ⟨_, rfl, rfl⟩

/-- A machine with room for one instruction: one fits, two do not. -/
def small : State := { State.reset with capacity := ⟨1, none⟩ }

theorem witness_ResetClearsEverything :
    ([⟨.hlt, 0, 0, 0⟩] : List Instruction).length ≤ small.capacity.programMax ∧
    small.capacity.programMax.val <
      ([⟨.hlt, 0, 0, 0⟩, ⟨.hlt, 0, 0, 0⟩] : List Instruction).length := by decide

/-- The same machine with its one place taken. -/
def full : State := { small with program := [⟨.hlt, 0, 0, 0⟩] }

theorem witness_AppendIsSeenByTheNextFetch :
    (small.program.length < small.capacity.programMax ∧ small.run = .running ∧
      small.pc = small.program.length) ∧
    full.capacity.programMax ≤ full.program.length := by decide

theorem witness_RunStepsUntilHalted :
    (∃ t r, hostRun 5 State.reset = .next (t, r) ∧ t.runState = .halted) ∧
    (∃ t r, hostRun 1 (prep 0 0 ⟨.inc, 0, 0, 0⟩) = .next (t, r) ∧ t.run = .running) ∧
    (halted .divisionByZero).run = .halted (.haltedOnFault .divisionByZero) :=
  ⟨⟨_, _, rfl, rfl⟩, ⟨_, _, rfl, rfl⟩, rfl⟩

end Sys2Proof.Tests
end

section
/-!
PROOFS. The program store is the host's (10_state.md rule R35), and a run starts at its first
instruction (rule R28).
-/

namespace Sys2Proof.Machine

variable {s t : State} {i : Instr} {I : Instruction} {P : List Instruction}

/-! ## What the host's operations give -/

/-- A reset that completes had a program within PROGRAM_MAX and gives the reset state with that
program and the machine's own capacities (R230, R231). -/
theorem hostReset_next_iff :
    hostReset P s = .next t ↔ P.length ≤ s.capacity.programMax ∧
      t = { State.reset with program := P, capacity := s.capacity } := by
  unfold hostReset
  split
  · rename_i h; simp [h, eq_comm]
  · rename_i h; simp [h]

/-- An append that completes found room below PROGRAM_MAX and writes the program store alone (R236). -/
theorem hostAppend_next_iff :
    hostAppend I s = .next t ↔ s.program.length < s.capacity.programMax ∧
      t = { s with program := s.program ++ [I] } := by
  unfold hostAppend
  split
  · rename_i h; simp [h, eq_comm]
  · rename_i h; simp [h]

/-! ## The instruction a step runs -/

/-- A Running engine whose pc stands on the Instruction of `i` runs `i` with the pc advanced (R112). -/
theorem step_of_fetches (h : s.fetches i) : step s = exec i (s.setPc (s.pc + 1)) := by
  obtain ⟨hrun, hprogram⟩ := h
  exact (step_of_fetched hrun hprogram).trans (runInstruction_of_some i.toInstruction_instr?)

/-! ## No step writes the program store or the capacities -/

theorem Effect.program_eq (h : Effect i s t) : t.program = s.program := by cases h <;> rfl

theorem Effect.capacity_eq (h : Effect i s t) : t.capacity = s.capacity := by cases h <;> rfl

theorem step_keeps_program_and_capacity (h : step s = .next t) :
    t.program = s.program ∧ t.capacity = s.capacity := by
  rcases step_cases s with ⟨_, -, hs⟩ | ⟨-, -, hs⟩ | ⟨-, -, hs⟩ | ⟨_, -, -, -, hs⟩ |
    ⟨_, i, -, -, -, hs⟩ <;> rw [hs] at h
  case inr.inr.inr.inr =>
    have he : Effect i (s.setPc (s.pc + 1)) t := exec_effect i h
    exact ⟨he.program_eq, he.capacity_eq⟩
  all_goals cases h; exact ⟨rfl, rfl⟩

/-! ## No instruction reads the program store

Putting another program in the store before an instruction, or after it, gives the same outcome. Each
operation's rule follows from the rules of the shared operations it calls; registers, pc, flag and
heap are no different under another program, so the bodies agree by definition. -/

/-- The state with another program in its store. -/
def State.withProgram (P : List Instruction) (s : State) : State := { s with program := P }

/-- An outcome with `f` applied to its next state, if it has one. -/
def mapNext (f : State → State) :
    Host.Outcome State Fault Refusal → Host.Outcome State Fault Refusal
  | .next t => .next (f t)
  | .fault r => .fault r
  | .refused r => .refused r

/-- The register check looks at the slot alone: it is blind to the program where its body is. -/
theorem withReg_withProgram {a : Slot} {body body' : Fin 32 → Host.Outcome State Fault Refusal}
    (hbody : ∀ d, body' d = mapNext (State.withProgram P) (body d)) :
    withReg a (s.withProgram P) body' = mapNext (State.withProgram P) (withReg a s body) := by
  unfold withReg
  cases regIndex? a with
  | some d => exact hbody d
  | none => rfl

/-- A choice between two outcomes maps arm by arm. -/
theorem ite_eq_mapNext {c : Prop} [Decidable c] {f : State → State}
    {yes no yes' no' : Host.Outcome State Fault Refusal} (hyes : yes' = mapNext f yes)
    (hno : no' = mapNext f no) : (if c then yes' else no') = mapNext f (if c then yes else no) := by
  split
  · exact hyes
  · exact hno

theorem jumpTo_withProgram (d : Int) :
    jumpTo d (s.withProgram P) = mapNext (State.withProgram P) (jumpTo d s) :=
  ite_eq_mapNext rfl rfl

theorem heapGrow_withProgram (n : Nat) :
    heapGrow n (s.withProgram P) = mapNext (State.withProgram P) (heapGrow n s) :=
  ite_eq_mapNext rfl rfl

theorem arith_withProgram (ra rb rd : Slot) (op : Int → Int → Int) :
    arith ra rb rd op (s.withProgram P) = mapNext (State.withProgram P) (arith ra rb rd op s) :=
  withReg_withProgram fun _ => withReg_withProgram fun _ => withReg_withProgram fun _ => rfl

theorem compareRegs_withProgram (ra rb : Slot) (rel : Word → Word → Bool) :
    compareRegs ra rb rel (s.withProgram P) =
      mapNext (State.withProgram P) (compareRegs ra rb rel s) :=
  withReg_withProgram fun _ => withReg_withProgram fun _ => rfl

theorem execDiv_withProgram (ra rb rd : Slot) :
    execDiv ra rb rd (s.withProgram P) = mapNext (State.withProgram P) (execDiv ra rb rd s) :=
  withReg_withProgram fun _ => withReg_withProgram fun _ => withReg_withProgram fun _ =>
    ite_eq_mapNext rfl rfl

theorem execJeq_withProgram (ra : Slot) :
    execJeq ra (s.withProgram P) = mapNext (State.withProgram P) (execJeq ra s) :=
  withReg_withProgram fun _ => ite_eq_mapNext (jumpTo_withProgram _) rfl

theorem execAloc_withProgram (ra : Slot) :
    execAloc ra (s.withProgram P) = mapNext (State.withProgram P) (execAloc ra s) :=
  withReg_withProgram fun _ => ite_eq_mapNext rfl (heapGrow_withProgram _)

/-- The effect of an instruction, a refusal included, is the same with any program in the store (R35). -/
theorem exec_withProgram (i : Instr) (P : List Instruction) (s : State) :
    exec i (s.withProgram P) = mapNext (State.withProgram P) (exec i s) := by
  cases i with
  | hlt a b c => rfl
  | load rd imm c => exact withReg_withProgram fun _ => rfl
  | add ra rb rd => exact arith_withProgram ..
  | sub ra rb rd => exact arith_withProgram ..
  | mul ra rb rd => exact arith_withProgram ..
  | div ra rb rd => exact execDiv_withProgram ..
  | jmp ra b c => exact withReg_withProgram fun _ => jumpTo_withProgram _
  | jmpf ra b c => exact withReg_withProgram fun _ => jumpTo_withProgram _
  | jmpb ra b c => exact withReg_withProgram fun _ => jumpTo_withProgram _
  | eq ra rb c => exact compareRegs_withProgram ..
  | neq ra rb c => exact compareRegs_withProgram ..
  | gt ra rb c => exact compareRegs_withProgram ..
  | lt ra rb c => exact compareRegs_withProgram ..
  | gtq ra rb c => exact compareRegs_withProgram ..
  | ltq ra rb c => exact compareRegs_withProgram ..
  | jeq ra b c => exact execJeq_withProgram ..
  | aloc ra b c => exact execAloc_withProgram ..
  | inc ra b c => exact withReg_withProgram fun _ => rfl
  | dec ra b c => exact withReg_withProgram fun _ => rfl

theorem exec_withProgram_of_next (h : exec i s = .next t) (P : List Instruction) :
    exec i (s.withProgram P) = .next (t.withProgram P) := by
  rw [exec_withProgram, h, mapNext]

/-! ## The obligations -/

/-- Settles O42: what a step and the host's two operations write, from the laws of each, and the
independence of every instruction from the store, from `exec_withProgram`. -/
theorem programStoreIsTheHosts : Obligations.ProgramStoreIsTheHosts := by
  refine ⟨fun s t h => step_keeps_program_and_capacity h, fun P s t h => ?reset,
    fun I s t h => ?append, fun i s t P h => exec_withProgram_of_next h P, fun s => rfl⟩
  case reset =>
    obtain ⟨hfits, rfl⟩ := hostReset_next_iff.1 h
    exact ⟨rfl, rfl, hfits⟩
  case append =>
    obtain ⟨hroom, rfl⟩ := hostAppend_next_iff.1 h
    refine ⟨rfl, rfl, ?_, fun k J hk => ?_⟩
    · rw [List.length_append]
      exact hroom
    · obtain ⟨hlt, -⟩ := List.getElem?_eq_some_iff.1 hk
      exact (List.getElem?_append_left hlt).trans hk

/-- Settles O48: a reset leaves the pc 0 and the engine Running, so the first fetch is at index 0. -/
theorem resetStartsAtIndexZero : Obligations.ResetStartsAtIndexZero := by
  refine ⟨rfl, rfl, fun P s t h => ?_⟩
  obtain ⟨-, rfl⟩ := hostReset_next_iff.1 h
  exact ⟨rfl, rfl, fun i hi => step_of_fetches ⟨rfl, hi⟩⟩

end Sys2Proof.Machine
end

section
/-!
PROOFS. The heap only grows (20_memory.md rule R52): what a step does to the heap is to leave it as it
is or, for an ALOC, to grow it.
-/

namespace Sys2Proof.Machine

variable {s t : State} {i : Instr}

/-- An instruction leaves the heap as it is, or is an ALOC that grows it within HEAP_MAX. -/
theorem Effect.heap_eq_or_grew (h : Effect i s t) :
    t.heap = s.heap ∨ i.isAloc ∧ ∃ n, s.heapMayGrow n = true ∧ t.heap = s.heap.grow n := by
  cases h
  case grew hi n hn => exact .inr ⟨hi, n, hn, rfl⟩
  all_goals exact .inl rfl

/-- A step leaves the heap as it is, or fetched an ALOC and grew it within HEAP_MAX. -/
theorem step_heap_eq_or_grew (h : step s = .next t) :
    t.heap = s.heap ∨ (∃ i, s.fetches i ∧ i.isAloc) ∧
      ∃ n, s.heapMayGrow n = true ∧ t.heap = s.heap.grow n := by
  rcases step_cases s with ⟨_, -, hs⟩ | ⟨-, -, hs⟩ | ⟨-, -, hs⟩ | ⟨_, -, -, -, hs⟩ |
    ⟨I, i, hrun, hI, hi, hs⟩ <;> rw [hs] at h
  case inr.inr.inr.inr =>
    have he : Effect i (s.setPc (s.pc + 1)) t := exec_effect i h
    refine he.heap_eq_or_grew.imp_right fun ⟨haloc, hgrew⟩ => ⟨⟨i, ⟨hrun, ?_⟩, haloc⟩, hgrew⟩
    rw [Instruction.toInstruction_of_instr? hi, hI]
  all_goals cases h; exact .inl rfl

@[simp] theorem Memory.grow_len (m : Memory) (n : Nat) : (m.grow n).len = m.len + n := rfl

/-- Settles O43: a step that does not keep the heap grows it by an ALOC, and growth keeps the bytes
below the old length and makes those above it 0 (`Memory.byte?_grow`). -/
theorem heapOnlyGrows : Obligations.HeapOnlyGrows := by
  intro s t hwf h
  rcases step_heap_eq_or_grew h with hsame | ⟨haloc, n, -, hgrew⟩
  case inl =>
    rw [hsame]
    exact ⟨le_rfl, fun _ _ => rfl, fun _ hge hlt => absurd hlt hge.not_gt, fun hne => absurd rfl hne⟩
  case inr =>
    rw [hgrew, Memory.grow_len]
    refine ⟨Nat.le_add_right _ _, fun a ha => ?old, fun a hge hlt => ?new, fun _ => haloc⟩
    case old => rw [Memory.byte?_grow _ _ _ hwf, if_pos ha]
    case new => rw [Memory.byte?_grow _ _ _ hwf, if_neg hge.not_gt, if_pos hlt]

end Sys2Proof.Machine
end

section
/-!
PROOFS. The opcode table's mappings (30_encoding.md rule R71) and the opcode of a word (rule R81). No two
rows of the table share a code, a mnemonic or an operation, so looking a row up by its operation and
looking it up by another key invert each other.
-/

namespace Sys2Proof

/-- In a list whose keys are distinct, looking a key up finds the row that has it. -/
theorem find?_map_eq_some_iff {α β γ : Type} [BEq β] [LawfulBEq β] {rows : List α} {key : α → β}
    (hkey : (rows.map key).Nodup) (val : α → γ) {k : β} {v : γ} :
    (rows.find? fun r => key r == k).map val = some v ↔ ∃ r ∈ rows, key r = k ∧ val r = v := by
  rw [Option.map_eq_some_iff]
  constructor
  · rintro ⟨r, hr, hv⟩
    have hk := List.find?_some hr
    exact ⟨r, List.mem_of_find?_eq_some hr, eq_of_beq hk, hv⟩
  · rintro ⟨r, hr, rfl, hv⟩
    obtain ⟨found, hfound⟩ := Option.isSome_iff_exists.1
      (List.find?_isSome (p := fun x => key x == key r).2 ⟨r, hr, beq_self_eq_true _⟩)
    have hk := List.find?_some hfound
    have hsame : found = r :=
      List.inj_on_of_nodup_map hkey (List.mem_of_find?_eq_some hfound) hr (eq_of_beq hk)
    exact ⟨r, hsame ▸ hfound, hv⟩

/-- ILLEGAL stands for "no row", so any other operation that a lookup gives stands in a row. -/
theorem opcodeTable_lookupOp_eq_iff {β : Type} [BEq β] [LawfulBEq β] {key : OpcodeRow → β}
    (hkey : (opcodeTable.map key).Nodup) {op : Opcode} (hop : op ≠ .illegal) {k : β} :
    ((opcodeTable.find? fun r => key r == k).map OpcodeRow.op).getD .illegal = op ↔
      ∃ r ∈ opcodeTable, key r = k ∧ r.op = op := by
  rw [Option.getD_eq_iff, or_iff_left fun h => hop h.2.symm, find?_map_eq_some_iff hkey]

theorem opcodeTable_op_ne_illegal : ∀ r ∈ opcodeTable, r.op ≠ .illegal := by decide

/-- The lookup of an operation's key and the lookup of a key's operation invert each other, for any key
that tells the rows apart. -/
theorem opcodeTable_lookupKey_eq_some_iff {β : Type} [BEq β] [LawfulBEq β] {key : OpcodeRow → β}
    (hkey : (opcodeTable.map key).Nodup) {op : Opcode} {k : β} :
    (opcodeTable.find? fun r => r.op == op).map key = some k ↔
      op ≠ .illegal ∧
        ((opcodeTable.find? fun r => key r == k).map OpcodeRow.op).getD .illegal = op := by
  rw [find?_map_eq_some_iff opcodeTable_distinct.2.2]
  constructor
  · rintro ⟨r, hr, rfl, hk⟩
    have hop := opcodeTable_op_ne_illegal r hr
    exact ⟨hop, (opcodeTable_lookupOp_eq_iff hkey hop).2 ⟨r, hr, hk, rfl⟩⟩
  · rintro ⟨hop, hlookup⟩
    obtain ⟨r, hr, hk, hrop⟩ := (opcodeTable_lookupOp_eq_iff hkey hop).1 hlookup
    exact ⟨r, hr, hrop, hk⟩

namespace Opcode

variable {op : Opcode} {b c : Byte} {m : List Char}

/-- `toCode` is the inverse of `fromCode` on the operations (R71). -/
theorem toCode?_eq_some_iff : op.toCode? = some c ↔ op ≠ .illegal ∧ fromCode c = op :=
  opcodeTable_lookupKey_eq_some_iff opcodeTable_distinct.1

/-- `fromMnemonic` is the inverse of the mnemonics of the operations (R71). -/
theorem mnemonic?_eq_some_iff : op.mnemonic? = some m ↔ op ≠ .illegal ∧ fromMnemonic m = op :=
  opcodeTable_lookupKey_eq_some_iff opcodeTable_distinct.2.1

theorem toCode?_fromCode (h : fromCode b ≠ .illegal) : (fromCode b).toCode? = some b :=
  toCode?_eq_some_iff.2 ⟨h, rfl⟩

/-- A byte selects an operation exactly when it is the operation's code. -/
theorem fromCode_eq_iff (h : op.toCode? = some c) : fromCode b = op ↔ b = c := by
  obtain ⟨hop, hc⟩ := toCode?_eq_some_iff.1 h
  constructor
  · rintro rfl
    exact Option.some.inj ((toCode?_fromCode hop).symm.trans h)
  · rintro rfl
    exact hc

/-- The codes are 0 to 18 (R70). -/
theorem opcodeTable_codes :
    opcodeTable.map OpcodeRow.code = (List.range 19).map (BitVec.ofNat 8) := by decide

theorem exists_row_code_eq_iff : (∃ r ∈ opcodeTable, r.code = b) ↔ b.toNat ≤ 18 := by
  rw [← List.mem_map, opcodeTable_codes, List.mem_map]
  constructor
  · rintro ⟨n, hn, rfl⟩
    rw [List.mem_range] at hn
    rw [BitVec.toNat_ofNat]
    omega
  · intro hb
    exact ⟨b.toNat, List.mem_range.2 (by omega), BitVec.ofNat_toNat ..⟩

/-- The bytes 0 to 18 select the operations; every other byte selects ILLEGAL (R71). -/
theorem fromCode_ne_illegal_iff : fromCode b ≠ .illegal ↔ b.toNat ≤ 18 := by
  rw [← exists_row_code_eq_iff]
  constructor
  · intro h
    obtain ⟨r, hr, hb, -⟩ := (opcodeTable_lookupOp_eq_iff opcodeTable_distinct.1 h).1 rfl
    exact ⟨r, hr, hb⟩
  · rintro ⟨r, hr, hb⟩
    have hop := opcodeTable_op_ne_illegal r hr
    have hlookup : fromCode b = r.op :=
      (opcodeTable_lookupOp_eq_iff opcodeTable_distinct.1 hop).2 ⟨r, hr, hb, rfl⟩
    rwa [hlookup]

end Opcode

/-! ## The opcode byte of a word -/

@[simp] theorem decodeGroup_opcode (b0 b1 b2 b3 : Byte) :
    (decodeGroup b0 b1 b2 b3).opcode = Opcode.fromCode b0 := by
  unfold decodeGroup
  split
  case h_1 hload => exact hload.symm
  case h_2 => rfl

theorem decodeBinary_bytesOfWord_opcode (w : Word) :
    (decodeBinary (bytesOfWord w)).map Instruction.opcode =
      [Opcode.fromCode (w.extractLsb' 24 8)] := by
  simp [bytesOfWord]

/-- The mask FF000000 keeps the first byte of a word, and clears the rest (R81). -/
theorem and_opcodeMask (w : Word) : w &&& 0xFF000000#32 = w.extractLsb' 24 8 ++ 0#24 := by
  have hmask : 0xFF000000#32 = BitVec.allOnes 8 ++ 0#24 := by decide
  have hw : w.extractLsb' 24 8 ++ w.extractLsb' 0 24 = w :=
    BitVec.extractLsb'_append_extractLsb' (w := 8)
  calc w &&& 0xFF000000#32
      = (w.extractLsb' 24 8 ++ w.extractLsb' 0 24) &&& (BitVec.allOnes 8 ++ 0#24) := by
        rw [hw, hmask]
    _ = w.extractLsb' 24 8 ++ 0#24 := by
        rw [BitVec.and_append, BitVec.and_allOnes, BitVec.and_zero]

theorem ofNat_code_shifted (c : Byte) : BitVec.ofNat 32 (c.toNat * 2 ^ 24) = c ++ 0#24 := by
  apply BitVec.eq_of_toNat_eq
  have happend : (c ++ 0#24).toNat = c.toNat * 2 ^ 24 := by
    rw [BitVec.toNat_append, BitVec.toNat_ofNat, Nat.zero_mod, Nat.or_zero, Nat.shiftLeft_eq]
  rw [happend, BitVec.toNat_ofNat]
  omega

theorem and_opcodeMask_eq_iff (w : Word) (c : Byte) :
    w &&& 0xFF000000#32 = BitVec.ofNat 32 (c.toNat * 2 ^ 24) ↔ w.extractLsb' 24 8 = c := by
  rw [and_opcodeMask, ofNat_code_shifted, BitVec.append_left_inj]

/-! ## The obligations -/

/-- Settles O3: the mask compares the first byte of the word with the code, and the decoder reads the
operation from that byte. -/
theorem opcodeByteSelectsOperation : Obligations.OpcodeByteSelectsOperation := by
  refine ⟨fun w op c hcode => ?selected, fun w hnone => ?illegal⟩
  case selected =>
    rw [decodeBinary_bytesOfWord_opcode, and_opcodeMask_eq_iff, List.singleton_inj,
      Opcode.fromCode_eq_iff hcode]
  case illegal =>
    rw [decodeBinary_bytesOfWord_opcode, List.singleton_inj]
    by_contra hop
    exact hnone _ _ (Opcode.toCode?_fromCode hop) ((and_opcodeMask_eq_iff w _).2 rfl)

/-- Settles O2: the two columns of the table as written, then the laws of the lookups. -/
theorem opcodeMappingsAgree : Obligations.OpcodeMappingsAgree := by
  refine ⟨by decide, by decide, fun op c hcode => ?code, fun b hb => ?legal, fun b hb => ?illegal,
    fun op m hm => ?mnemonic, fun m hnone => ?noMnemonic, rfl, rfl⟩
  case code => exact (Opcode.toCode?_eq_some_iff.1 hcode).2
  case legal => exact Opcode.toCode?_fromCode (Opcode.fromCode_ne_illegal_iff.2 hb)
  case illegal =>
    by_contra hop
    have hle := Opcode.fromCode_ne_illegal_iff.1 hop
    omega
  case mnemonic => exact (Opcode.mnemonic?_eq_some_iff.1 hm).2
  case noMnemonic =>
    by_contra hop
    exact hnone _ (Opcode.mnemonic?_eq_some_iff.2 ⟨hop, rfl⟩)

end Sys2Proof
end

section
/-!
PROOFS. The binary decoder takes a stream one group of four bytes at a time, the missing bytes of a
short last group taken as 0 (30_encoding.md rules R78 and R79).
-/

namespace Sys2Proof

/-- The first group of a stream that is not empty, padded or whole, and the stream after it (R78). -/
theorem decodeBinary_cons (b0 : Byte) (rest : List Byte) :
    decodeBinary (b0 :: rest) =
      decodeGroup b0 (rest.getD 0 0) (rest.getD 1 0) (rest.getD 2 0) ::
        decodeBinary (rest.drop 3) := by
  match rest with
  | [] | [_] | [_, _] | _ :: _ :: _ :: _ => rfl

/-- To drop a group of bytes is to drop its Instruction. -/
theorem decodeBinary_drop_four (bytes : List Byte) :
    decodeBinary (bytes.drop 4) = (decodeBinary bytes).drop 1 := by
  cases bytes with
  | nil => rfl
  | cons b0 rest => rw [decodeBinary_cons, List.drop_succ_cons, List.drop_succ_cons, List.drop_zero]

theorem decodeBinary_drop (bytes : List Byte) (k : Nat) :
    decodeBinary (bytes.drop (4 * k)) = (decodeBinary bytes).drop k := by
  induction k with
  | zero => rfl
  | succ k ih => rw [Nat.mul_succ, ← List.drop_drop, decodeBinary_drop_four, ih, List.drop_drop]

/-- A stream of N bytes decodes to ceil(N / 4) Instructions (R79). -/
theorem decodeBinary_length (bytes : List Byte) :
    (decodeBinary bytes).length = (bytes.length + 3) / 4 := by
  induction bytes using decodeBinary.induct with
  | case1 => rfl
  | case2 | case3 | case4 => simp [decodeBinary]
  | case5 b0 b1 b2 b3 rest ih =>
    simp only [decodeBinary_group, List.length_cons, ih]
    omega

theorem decodeBinary_getElem?_zero {bytes : List Byte} (h : bytes ≠ []) :
    (decodeBinary bytes)[0]? = some (decodeGroup (bytes.getD 0 0) (bytes.getD 1 0)
      (bytes.getD 2 0) (bytes.getD 3 0)) := by
  cases bytes with
  | nil => exact absurd rfl h
  | cons b0 rest => rw [decodeBinary_cons]; rfl

/-- Instruction `k` is the group at `4 * k`, its bytes beyond the end of the stream 0 (R79). -/
theorem decodeBinary_getElem? {bytes : List Byte} {k : Nat} (h : 4 * k < bytes.length) :
    (decodeBinary bytes)[k]? = some (decodeGroup (bytes.getD (4 * k) 0) (bytes.getD (4 * k + 1) 0)
      (bytes.getD (4 * k + 2) 0) (bytes.getD (4 * k + 3) 0)) := by
  have hne : bytes.drop (4 * k) ≠ [] := fun hnil => h.not_ge (List.drop_eq_nil_iff.1 hnil)
  have hfirst := decodeBinary_getElem?_zero hne
  simpa only [decodeBinary_drop, List.getElem?_drop, List.getD_eq_getElem?_getD, Nat.add_zero]
    using hfirst

/-! ## The obligations -/

/-- Settles O6: the bytes from `4 * k` on decode to the Instructions from `k` on, and what a stream
decodes to first is its first group. -/
theorem streamDecodesGroupByGroup : Obligations.StreamDecodesGroupByGroup := by
  refine ⟨fun bytes => ⟨decodeBinary_length bytes, fun k hk => decodeBinary_getElem? (by omega)⟩,
    rfl, fun bytes s t h => ?store⟩
  case store =>
    obtain ⟨-, rfl⟩ := Machine.hostReset_next_iff.1 h
    rfl

/-- Settles O5, by `decodeBinary_cons`. -/
theorem shortGroupIsZeroPadded : Obligations.ShortGroupIsZeroPadded :=
  ⟨rfl, decodeBinary_cons, rfl, rfl⟩

end Sys2Proof
end

section
/-!
PROOFS. HLT (40_engine_step.md rule R117): its encoding, its text, its effect and its frame.
-/

namespace Sys2Proof.Machine

variable {s : State}

/-! ## What a halt of the step's own leaves unchanged -/

/-- The model's `halt(o)` has the frame of a halt: run state and outcome are written, and nothing else
(R11). -/
theorem halted_halt (o : HaltOutcome) (s : State) : Halted o s (s.halt o) where
  regs := s.halt_x o
  equal := s.halt_equal o
  remainder := s.halt_remainder o
  heap := ⟨rfl, fun _ => rfl⟩
  program := s.halt_program o
  capacity := s.halt_capacity o
  pc := s.halt_pc o
  runState := s.halt_runState o
  outcome := s.halt_outcome o

@[simp] theorem State.reset_x (j : Fin 32) : State.reset.x j = 0 := Vector.getElem_replicate _

/-! ## HLT -/

/-- HLT reads no slot (R117). -/
theorem exec_hlt (a b c : Slot) (s : State) :
    exec (.hlt a b c) s = .next (s.halt .haltedNormally) := rfl

/-- Opcode byte 0 selects HLT, and its other bytes go to the slots one by one (R75). -/
theorem decodeGroup_zero_instr? (b1 b2 b3 : Byte) :
    (decodeGroup 0x00 b1 b2 b3).instr? =
      some (.hlt (Slot.ofByte b1) (Slot.ofByte b2) (Slot.ofByte b3)) := rfl

theorem step_of_fetches_hlt {a b c : Slot} (h : s.fetches (.hlt a b c)) :
    step s = .next ((s.setPc (s.pc + 1)).halt .haltedNormally) := by
  rw [step_of_fetches h, exec_hlt]

/-- Settles O25: HLT is `halt(HaltedNormally)` from every state, and the one-instruction program
fetches it. -/
theorem hltHaltsNormally : Obligations.HltHaltsNormally := by
  refine ⟨fun b1 b2 b3 => ⟨_, _, _, decodeGroup_zero_instr? b1 b2 b3⟩, by decide,
    fun a b c s => ⟨_, exec_hlt a b c s, halted_halt _ s⟩, ?program⟩
  case program =>
    have hfetch : (State.boot [0, 0, 0, 0]).fetches (.hlt 0 0 0) := ⟨rfl, rfl⟩
    exact ⟨_, step_of_fetches_hlt hfetch, rfl, rfl, State.reset_x⟩

end Sys2Proof.Machine
end

section
/-!
PROOFS. A line that writes register operands decodes to the slots it names (30_encoding.md rules R84 to
R90): the decimal text of a number is read back as the number, so each register token fills its slot.
-/

namespace Sys2Proof

variable {cs ds m : List Char} {ch : Char} {n d : Nat} {v a b : Slot}

/-! ## Decimal numbers -/

/-- The digit strings, and the number each is read as (R84). -/
theorem parseDigits_eq_some_iff : parseDigits cs = some n ↔
    (cs ≠ [] ∧ cs.all isDigit) ∧ cs.foldl (fun n ch => 10 * n + (ch.toNat - 0x30)) 0 = n := by
  rw [parseDigits, Option.ite_none_right_eq_some, Option.some.injEq]

theorem digitChar_toNat : ∀ d < 10, (digitChar d).toNat = 0x30 + d := by decide

theorem isDigit_digitChar (hd : d < 10) : isDigit (digitChar d) = true := by
  rw [isDigit, digitChar_toNat d hd, decide_eq_true_eq]
  omega

theorem parseDigits_digitChar (hd : d < 10) : parseDigits [digitChar d] = some d := by
  rw [parseDigits_eq_some_iff]
  simp [isDigit_digitChar hd, digitChar_toNat d hd]

/-- One more digit on the right multiplies by ten and adds the digit (R84). -/
theorem parseDigits_concat (h : parseDigits ds = some n) (hd : d < 10) :
    parseDigits (ds ++ [digitChar d]) = some (10 * n + d) := by
  rw [parseDigits_eq_some_iff] at h ⊢
  obtain ⟨⟨-, hall⟩, hvalue⟩ := h
  simp [hall, hvalue, isDigit_digitChar hd, digitChar_toNat d hd]

theorem parseDigits_decimalDigits (fuel n : Nat) (h : n < 10 ^ (fuel + 1)) :
    parseDigits (decimalDigits (fuel + 1) n) = some n := by
  induction fuel generalizing n with
  | zero =>
    have hlt : n < 10 := h
    rw [decimalDigits, if_pos hlt, parseDigits_digitChar hlt]
  | succ fuel ih =>
    rw [decimalDigits]
    split
    case isTrue hlt => exact parseDigits_digitChar hlt
    case isFalse =>
      have hquot : n / 10 < 10 ^ (fuel + 1) := by rw [Nat.pow_succ] at h; omega
      rw [parseDigits_concat (ih _ hquot) (Nat.mod_lt n (by decide)), Nat.div_add_mod]

/-- The text of a number of at most ten digits is read back as the number. -/
theorem parseDigits_decimal (h : n < 10 ^ 10) : parseDigits (decimal n) = some n :=
  parseDigits_decimalDigits 9 n h

theorem isSpace_of_isDigit (h : isDigit ch = true) : isSpace ch = false := by
  simp only [isDigit, decide_eq_true_eq] at h
  simp [isSpace]
  omega

/-! ## Register tokens -/

theorem natAbs_toInt_of_nonneg (h : 0 ≤ v.toInt) : v.toInt.natAbs = v.toNat := by
  rw [BitVec.toInt_eq_toNat_of_lt (BitVec.toInt_pos_iff.1 h), Int.natAbs_natCast]

/-- A slot that is not negative is written `$` and its digits (R85). -/
theorem registerText_of_nonneg (h : 0 ≤ v.toInt) : registerText v = '$' :: decimal v.toNat := by
  rw [registerText, if_neg h.not_gt, natAbs_toInt_of_nonneg h]

theorem parseDigits_decimal_toNat (v : Slot) : parseDigits (decimal v.toNat) = some v.toNat :=
  parseDigits_decimal (v.isLt.trans (by decide))

/-- A written register token is read back as the slot (R85). -/
theorem classify_registerText (h : 0 ≤ v.toInt) : classify (registerText v) = .register v := by
  have hfits : v.toNat ≤ 2147483647 := by
    have := BitVec.toInt_pos_iff.1 h
    omega
  rw [registerText_of_nonneg h]
  simp [classify, registerToken, parseDigits_decimal_toNat, hfits]

theorem registerText_ne_nil (h : 0 ≤ v.toInt) : registerText v ≠ [] := by
  rw [registerText_of_nonneg h]
  exact List.cons_ne_nil _ _

theorem registerText_not_space (h : 0 ≤ v.toInt) : ∀ ch ∈ registerText v, isSpace ch = false := by
  obtain ⟨⟨-, hdigits⟩, -⟩ := parseDigits_eq_some_iff.1 (parseDigits_decimal_toNat v)
  rw [registerText_of_nonneg h, List.forall_mem_cons]
  exact ⟨by decide, fun ch hch => isSpace_of_isDigit (List.all_eq_true.1 hdigits ch hch)⟩

theorem splitTokens_registerText (h : 0 ≤ v.toInt) :
    splitTokens (registerText v) = [registerText v] :=
  splitTokens_run _ (registerText_ne_nil h) (registerText_not_space h)

/-! ## A mnemonic and two registers -/

/-- A mnemonic with two register tokens fills slots 0 and 1 (R90). -/
theorem decodeTokens_mnemonic_registers (hop : Opcode.fromMnemonic m ≠ .illegal) (a b : Slot) :
    decodeTokens [.mnemonic m, .register a, .register b] = ⟨Opcode.fromMnemonic m, a, b, 0⟩ := by
  -- `hop`, from the context, lets `simp only` take the arm of an operation.
  simp only [decodeTokens, List.filterMap, Token.mnemonic?, Token.operand?]
  rw [if_neg (by simp)]
  rfl

/-- The line `MNEMONIC $a $b`, for a mnemonic token `m` that names an operation. -/
theorem decodeLine_mnemonic_registers (htokens : splitTokens m = [m])
    (hclass : classify m = .mnemonic m) (hop : Opcode.fromMnemonic m ≠ .illegal)
    (ha : 0 ≤ a.toInt) (hb : 0 ≤ b.toInt) :
    decodeLine (m ++ ' ' :: registerText a ++ ' ' :: registerText b) =
      ⟨Opcode.fromMnemonic m, a, b, 0⟩ := by
  have hsplit : splitTokens (m ++ ' ' :: registerText a ++ ' ' :: registerText b) =
      [m, registerText a, registerText b] := by
    rw [splitTokens_append_space _ _ rfl, splitTokens_append_space _ _ rfl, htokens,
      splitTokens_registerText ha, splitTokens_registerText hb]
    rfl
  rw [decodeLine, hsplit, List.map_cons, List.map_cons, List.map_singleton, hclass,
    classify_registerText ha, classify_registerText hb, decodeTokens_mnemonic_registers hop]

end Sys2Proof
end

section
/-!
PROOFS. EQ and NEQ (44_compare.md rules R180 to R182): what a comparison of any relation does, then the
two relations as equality of all 32 bits.
-/

namespace Sys2Proof.Machine

variable {s : State} {a b : Slot} {i j : Fin 32}

/-! ## What writing the flag and raising a fault leave unchanged -/

theorem onlyFlagWritten_setEqual (v : Bool) (s : State) : OnlyFlagWritten s (s.setEqual v) where
  regs := s.setEqual_x v
  pc := s.setEqual_pc v
  remainder := s.setEqual_remainder v
  heap := ⟨rfl, fun _ => rfl⟩
  program := s.setEqual_program v
  run := s.setEqual_run v
  capacity := s.setEqual_capacity v

/-- The model's `raiseFault` has the frame of a fault (R204). -/
theorem raised_raiseFault (kind : FaultKind) (s : State) : Raised kind s (s.raiseFault kind) where
  toOnlyRunWritten := (halted_halt (.haltedOnFault kind) s).toOnlyRunWritten
  runState := s.halt_runState _
  outcome := s.raiseFault_outcome kind

/-! ## A comparison -/

/-- Two register slots of which one names no register fail the check, whichever it is (R114). -/
theorem withRegs2_of_out {body : Fin 32 → Fin 32 → Host.Outcome State Fault Refusal}
    (h : a.namesNone ∨ b.namesNone) :
    withRegs2 a b s body = .next (s.raiseFault .registerOutOfRange) := by
  rcases withReg_cases a s fun i => withReg b s fun j => body i j with ⟨-, hout⟩ | ⟨i, hi, hfirst⟩
  case inl => exact hout
  case inr =>
    have ha : ¬ a.namesNone := by unfold Slot.namesNone; omega
    exact hfirst.trans (withReg_of_out (h.resolve_left ha))

theorem compareRegs_of_names (rel : Word → Word → Bool) (s : State) (ha : a.names i)
    (hb : b.names j) : compareRegs a b rel s = .next (s.setEqual (rel (s.x i) (s.x j))) :=
  withRegs2_of_index ha hb

theorem compareRegs_of_namesNone (rel : Word → Word → Bool) (s : State)
    (h : a.namesNone ∨ b.namesNone) :
    compareRegs a b rel s = .next (s.raiseFault .registerOutOfRange) :=
  withRegs2_of_out h

/-- A comparison of two registers completes and writes the flag alone, with the truth of its relation
(R180). -/
theorem compareRegs_writes_flag {rel : Word → Word → Bool} {p : Word → Word → Prop}
    (hrel : ∀ u v, rel u v = true ↔ p u v) (s : State) (ha : a.names i) (hb : b.names j) :
    ∃ t, compareRegs a b rel s = .next t ∧ OnlyFlagWritten s t ∧
      (t.equal = true ↔ p (s.x i) (s.x j)) :=
  ⟨_, compareRegs_of_names rel s ha hb, onlyFlagWritten_setEqual _ s, hrel _ _⟩

/-- A comparison with a slot that names no register faults, the flag kept as it was (R180). -/
theorem compareRegs_raises (rel : Word → Word → Bool) (s : State) (h : a.namesNone ∨ b.namesNone) :
    ∃ t, compareRegs a b rel s = .next t ∧ Raised .registerOutOfRange s t :=
  ⟨_, compareRegs_of_namesNone rel s h, raised_raiseFault _ s⟩

/-! ## EQ and NEQ -/

theorem exec_eq (a b c : Slot) (s : State) : exec (.eq a b c) s = compareRegs a b flagEq s := rfl

theorem exec_neq (a b c : Slot) (s : State) : exec (.neq a b c) s = compareRegs a b flagNeq s := rfl

/-- Two words of the same signed value have the same 32 bits (R181). -/
theorem flagEq_eq_true_iff (u v : Word) : flagEq u v = true ↔ u = v := by
  rw [flagEq, decide_eq_true_eq, BitVec.toInt_inj]

theorem flagNeq_eq_true_iff (u v : Word) : flagNeq u v = true ↔ u ≠ v := by
  rw [flagNeq, decide_eq_true_eq, ne_eq, BitVec.toInt_inj]

theorem decodeGroup_nine_instr? (b1 b2 b3 : Byte) :
    (decodeGroup 0x09 b1 b2 b3).instr? =
      some (.eq (Slot.ofByte b1) (Slot.ofByte b2) (Slot.ofByte b3)) := rfl

theorem decodeGroup_ten_instr? (b1 b2 b3 : Byte) :
    (decodeGroup 0x0A b1 b2 b3).instr? =
      some (.neq (Slot.ofByte b1) (Slot.ofByte b2) (Slot.ofByte b3)) := rfl

/-- Settles O34: both instructions are `compareRegs`, whose relation is equality or difference of the
two words; the programs of the rules are run by the model. -/
theorem eqAndNeqCompareAllBits : Obligations.EqAndNeqCompareAllBits := by
  refine ⟨fun b1 b2 b3 => ?bytes, fun ra rb ha hb => ⟨?eqLine, ?neqLine⟩,
    fun ra rb c i j s ha hb => ⟨?eq, ?neq⟩, fun ra rb c s h => ⟨?eqFault, ?neqFault⟩,
    ⟨_, _, rfl, rfl, rfl, rfl⟩, ⟨_, _, rfl, rfl, rfl, rfl⟩⟩
  case bytes =>
    exact ⟨_, _, _, decodeGroup_nine_instr? b1 b2 b3, decodeGroup_ten_instr? b1 b2 b3,
      Slot.ofByte_toInt b1, Slot.ofByte_toInt b2⟩
  case eqLine =>
    exact decodeLine_mnemonic_registers (m := ['E', 'Q']) rfl rfl (by decide) ha hb
  case neqLine =>
    exact decodeLine_mnemonic_registers (m := ['N', 'E', 'Q']) rfl rfl (by decide) ha hb
  case eq => exact compareRegs_writes_flag flagEq_eq_true_iff s ha hb
  case neq => exact compareRegs_writes_flag flagNeq_eq_true_iff s ha hb
  case eqFault => exact compareRegs_raises flagEq s h
  case neqFault => exact compareRegs_raises flagNeq s h

end Sys2Proof.Machine
end

section
/-!
PROOFS. A line that writes one register operand decodes to the slot it names (30_encoding.md rules R84
to R90).
-/

namespace Sys2Proof

variable {m : List Char} {a : Slot}

/-- A mnemonic with one register token fills slot 0 and leaves the others 0 (R90). -/
theorem decodeTokens_mnemonic_register (hop : Opcode.fromMnemonic m ≠ .illegal) (a : Slot) :
    decodeTokens [.mnemonic m, .register a] = ⟨Opcode.fromMnemonic m, a, 0, 0⟩ := by
  -- `hop`, from the context, lets `simp only` take the arm of an operation.
  simp only [decodeTokens, List.filterMap, Token.mnemonic?, Token.operand?]
  rw [if_neg (by simp)]
  rfl

/-- The line `MNEMONIC $a`, for a mnemonic token `m` that names an operation. -/
theorem decodeLine_mnemonic_register (htokens : splitTokens m = [m])
    (hclass : classify m = .mnemonic m) (hop : Opcode.fromMnemonic m ≠ .illegal)
    (ha : 0 ≤ a.toInt) :
    decodeLine (m ++ ' ' :: registerText a) = ⟨Opcode.fromMnemonic m, a, 0, 0⟩ := by
  have hsplit : splitTokens (m ++ ' ' :: registerText a) = [m, registerText a] := by
    rw [splitTokens_append_space _ _ rfl, htokens, splitTokens_registerText ha]
    rfl
  rw [decodeLine, hsplit, List.map_cons, List.map_singleton, hclass, classify_registerText ha,
    decodeTokens_mnemonic_register hop]

end Sys2Proof
end

section
/-!
PROOFS. ALOC (45_heap.md rule R195): its encoding, its text, the growth it makes, its frame and its
faults.
-/

namespace Sys2Proof.Machine

variable {s : State} {ra : Slot} {i : Fin 32}

/-! ## The bytes of a heap that grew -/

theorem Memory.byte?_grow_of_old {m : Memory} (h : m.wf = true) (n : Nat) {a : Nat}
    (ha : a < m.len) : (m.grow n).byte? a = m.byte? a := by
  rw [Memory.byte?_grow m n a h, if_pos ha]

theorem Memory.byte?_grow_of_new {m : Memory} (h : m.wf = true) {n a : Nat} (hold : m.len ≤ a)
    (hnew : a < m.len + n) : (m.grow n).byte? a = some 0 := by
  rw [Memory.byte?_grow m n a h, if_neg hold.not_gt, if_pos hnew]

/-- No byte exists from the length of a heap up (R51). -/
theorem Memory.byte?_of_len_le {m : Memory} {a : Nat} (h : m.len ≤ a) : m.byte? a = none :=
  if_neg h.not_gt

theorem onlyHeapWritten_withHeap (m : Memory) (s : State) :
    OnlyHeapWritten s { s with heap := m } where
  regs _ := rfl
  pc := rfl
  equal := rfl
  remainder := rfl
  program := rfl
  run := rfl
  capacity := rfl

/-! ## ALOC -/

/-- Opcode byte 16 selects ALOC, and its other bytes go to the slots one by one (R75). -/
theorem decodeGroup_sixteen_instr? (b1 b2 b3 : Byte) :
    (decodeGroup 0x10 b1 b2 b3).instr? =
      some (.aloc (Slot.ofByte b1) (Slot.ofByte b2) (Slot.ofByte b3)) := rfl

theorem exec_aloc (ra b c : Slot) (s : State) : exec (.aloc ra b c) s = execAloc ra s := rfl

/-- A negative amount faults before the heap is touched (R195). -/
theorem execAloc_of_neg (ha : ra.names i) (hneg : (s.x i).toInt < 0) :
    execAloc ra s = .next (s.raiseFault .negativeAllocation) :=
  (withReg_of_index ha).trans (if_pos hneg)

/-- An amount of 0 or more is handed to the heap's growth as a byte count, unrounded (R195). -/
theorem execAloc_of_nonneg (ha : ra.names i) (hamount : 0 ≤ (s.x i).toInt) :
    execAloc ra s = heapGrow (s.x i).toInt.toNat s :=
  (withReg_of_index ha).trans (if_neg hamount.not_gt)

theorem execAloc_of_namesNone (h : ra.namesNone) :
    execAloc ra s = .next (s.raiseFault .registerOutOfRange) :=
  withReg_of_out h

/-- HEAP_MAX, stated for the signed amount of a register, admits the growth (R53). -/
theorem heapMayGrow_of_amount {d : Int} (hd : 0 ≤ d)
    (hmax : ∀ bound : Nat, s.capacity.heapMax = some bound → s.heap.len + d ≤ bound) :
    s.heapMayGrow d.toNat = true := by
  rw [heapMayGrow_iff]
  intro bound hbound
  have hle := hmax bound hbound
  omega

/-- Settles O36: an admitted amount grows the heap, whose bytes are those of `Memory.grow`; the two
faults are raised with nothing written; the program of the rule is run by the model. -/
theorem alocGrowsTheHeap : Obligations.AlocGrowsTheHeap := by
  refine ⟨fun b1 b2 b3 => ?bytes, fun ra ha => ?line,
    fun ra b c i s ha hwf hamount hmax => ?grows, fun ra b c i s ha hneg => ?negative,
    fun ra b c s h => ?badSlot, ⟨_, rfl, rfl, rfl⟩⟩
  case bytes => exact ⟨_, _, _, decodeGroup_sixteen_instr? b1 b2 b3, Slot.ofByte_toInt b1⟩
  case line =>
    exact decodeLine_mnemonic_register (m := ['A', 'L', 'O', 'C']) rfl rfl (by decide) ha
  case grows =>
    have hgrow : exec (.aloc ra b c) s =
        .next { s with heap := s.heap.grow (s.x i).toInt.toNat } := by
      rw [exec_aloc, execAloc_of_nonneg ha hamount]
      exact (heapGrow_next_iff _ _ _).2 ⟨heapMayGrow_of_amount hamount hmax, rfl⟩
    refine ⟨_, hgrow, onlyHeapWritten_withHeap _ s, ?len,
      fun _ hold => Memory.byte?_grow_of_old hwf _ hold,
      fun _ hold hnew => Memory.byte?_grow_of_new hwf hold hnew,
      fun _ hbeyond => Memory.byte?_of_len_le hbeyond, fun hzero => ?zero⟩
    case len => rw [Memory.grow_len, Nat.cast_add, Int.toNat_of_nonneg hamount]
    case zero => rw [hzero]; rfl
  case negative => exact ⟨_, execAloc_of_neg ha hneg, raised_raiseFault _ s⟩
  case badSlot => exact ⟨_, execAloc_of_namesNone h, raised_raiseFault _ s⟩

end Sys2Proof.Machine
end

section
/-!
PROOFS. The register-index check (40_engine_step.md rule R114, 60_exceptions.md rule R205): an instruction
ends in RegisterOutOfRange exactly when one of its register slots names no register.
-/

namespace Sys2Proof.Machine

variable {s t : State} {a : Slot} {slots : List Slot}

/-- The outcome of a body behind the check of `slots` in the state `s`: a slot that names no register
raises RegisterOutOfRange, and out of a Running state nothing else does. -/
structure ChecksSlots (s : State) (slots : List Slot) (out : Host.Outcome State Fault Refusal) :
    Prop where
  raises : (∃ v ∈ slots, v.namesNone) → out = .next (s.raiseFault .registerOutOfRange)
  only : s.run = .running → out = .next (s.raiseFault .registerOutOfRange) →
    ∃ v ∈ slots, v.namesNone

theorem not_namesNone_of_names {i : Fin 32} (h : a.names i) : ¬ a.namesNone := by
  unfold Slot.names at h
  unfold Slot.namesNone
  omega

/-- One more register slot in front is one more slot checked. -/
theorem withReg_checksSlots {body : Fin 32 → Host.Outcome State Fault Refusal}
    (hbody : ∀ d, ChecksSlots s slots (body d)) : ChecksSlots s (a :: slots) (withReg a s body) := by
  rcases withReg_cases a s body with ⟨hout, h⟩ | ⟨d, hd, h⟩
  case inl => exact ⟨fun _ => h, fun _ _ => ⟨a, List.mem_cons_self, hout⟩⟩
  case inr =>
    have hslots : (∃ v ∈ a :: slots, v.namesNone) ↔ ∃ v ∈ slots, v.namesNone := by
      rw [List.exists_mem_cons_iff, or_iff_right (not_namesNone_of_names hd)]
    rw [h]
    exact ⟨fun hv => (hbody d).raises (hslots.1 hv),
      fun hrun hout => hslots.2 ((hbody d).only hrun hout)⟩

/-! ## Bodies: no slot is left to check, and RegisterOutOfRange is not raised -/

theorem checksSlots_nil {out : Host.Outcome State Fault Refusal}
    (h : s.run = .running → out ≠ .next (s.raiseFault .registerOutOfRange)) :
    ChecksSlots s [] out where
  raises := fun ⟨_, hv, _⟩ => absurd hv List.not_mem_nil
  only hrun hout := absurd hout (h hrun)

theorem checksSlots_of_run_eq (h : t.run = s.run) : ChecksSlots s [] (.next t) := by
  refine checksSlots_nil fun hrun hraised => ?_
  cases hraised
  rw [hrun] at h
  cases h

theorem checksSlots_halt {o : HaltOutcome} (h : o ≠ .haltedOnFault .registerOutOfRange) :
    ChecksSlots s [] (.next (s.halt o)) := by
  refine checksSlots_nil fun _ hraised => h ?_
  have hstate : s.halt o = s.raiseFault .registerOutOfRange := Host.Outcome.next.inj hraised
  exact Engine.halted.inj (congrArg State.run hstate)

theorem jumpTo_checksSlots (d : Int) : ChecksSlots s [] (jumpTo d s) := by
  rcases jumpTo_cases d s with ⟨-, h⟩ | ⟨-, h⟩ <;> rw [h]
  · exact checksSlots_halt (by decide)
  · exact checksSlots_of_run_eq rfl

theorem heapGrow_checksSlots (n : Nat) : ChecksSlots s [] (heapGrow n s) := by
  unfold heapGrow
  split
  · exact checksSlots_of_run_eq rfl
  · exact checksSlots_nil fun _ => nofun

theorem ite_checksSlots {c : Prop} [Decidable c] {yes no : Host.Outcome State Fault Refusal}
    (hyes : ChecksSlots s slots yes) (hno : ChecksSlots s slots no) :
    ChecksSlots s slots (if c then yes else no) := by
  split
  · exact hyes
  · exact hno

/-! ## Every instruction checks its register slots -/

theorem arith_checksSlots (ra rb rd : Slot) (op : Int → Int → Int) :
    ChecksSlots s [ra, rb, rd] (arith ra rb rd op s) :=
  withReg_checksSlots fun _ => withReg_checksSlots fun _ => withReg_checksSlots fun _ =>
    checksSlots_of_run_eq rfl

theorem compareRegs_checksSlots (ra rb : Slot) (rel : Word → Word → Bool) :
    ChecksSlots s [ra, rb] (compareRegs ra rb rel s) :=
  withReg_checksSlots fun _ => withReg_checksSlots fun _ => checksSlots_of_run_eq rfl

theorem execDiv_checksSlots (ra rb rd : Slot) :
    ChecksSlots s [ra, rb, rd] (execDiv ra rb rd s) :=
  withReg_checksSlots fun _ => withReg_checksSlots fun _ => withReg_checksSlots fun _ =>
    ite_checksSlots (checksSlots_halt (by decide)) (checksSlots_of_run_eq rfl)

theorem execJeq_checksSlots (ra : Slot) : ChecksSlots s [ra] (execJeq ra s) :=
  withReg_checksSlots fun _ => ite_checksSlots (jumpTo_checksSlots _) (checksSlots_of_run_eq rfl)

theorem execAloc_checksSlots (ra : Slot) : ChecksSlots s [ra] (execAloc ra s) :=
  withReg_checksSlots fun _ =>
    ite_checksSlots (checksSlots_halt (by decide)) (heapGrow_checksSlots _)

/-- Every instruction checks the register slots that R76 gives it, before its body (R114). -/
theorem exec_checksSlots (i : Instr) (s : State) : ChecksSlots s (registerSlots i) (exec i s) := by
  cases i with
  | hlt a b c => exact checksSlots_halt (by decide)
  | load rd imm c => exact withReg_checksSlots fun _ => checksSlots_of_run_eq rfl
  | add ra rb rd => exact arith_checksSlots ..
  | sub ra rb rd => exact arith_checksSlots ..
  | mul ra rb rd => exact arith_checksSlots ..
  | div ra rb rd => exact execDiv_checksSlots ..
  | jmp ra b c => exact withReg_checksSlots fun _ => jumpTo_checksSlots _
  | jmpf ra b c => exact withReg_checksSlots fun _ => jumpTo_checksSlots _
  | jmpb ra b c => exact withReg_checksSlots fun _ => jumpTo_checksSlots _
  | eq ra rb c => exact compareRegs_checksSlots ..
  | neq ra rb c => exact compareRegs_checksSlots ..
  | gt ra rb c => exact compareRegs_checksSlots ..
  | lt ra rb c => exact compareRegs_checksSlots ..
  | gtq ra rb c => exact compareRegs_checksSlots ..
  | ltq ra rb c => exact compareRegs_checksSlots ..
  | jeq ra b c => exact execJeq_checksSlots ..
  | aloc ra b c => exact execAloc_checksSlots ..
  | inc ra b c => exact withReg_checksSlots fun _ => checksSlots_of_run_eq rfl
  | dec ra b c => exact withReg_checksSlots fun _ => checksSlots_of_run_eq rfl

end Sys2Proof.Machine
end

section
/-!
PROOFS. Which instructions can raise which fault (60_exceptions.md rules R205 to R209), and the
obligations about the faults an instruction raises.
-/

namespace Sys2Proof.Machine

variable {s t : State} {i : Instr} {ra rb rd : Slot}

/-- What an instruction that raises a fault of this kind must be (R205 to R209); no instruction raises
ProgramCounterOverflow, which is the fetch's. -/
def FaultKind.RaisableBy (i : Instr) : FaultKind → Prop
  | .registerOutOfRange => ∃ v ∈ registerSlots i, v.namesNone
  | .divisionByZero => i.isDiv
  | .programCounterUnderflow => i.isJump = true
  | .programCounterOverflow => False
  | .negativeAllocation => i.isAloc

theorem State.outcome_of_running (h : s.run = .running) : s.outcome = none := by
  rw [State.outcome, h]

/-- An instruction run in a Running state that ends in a fault is one that can raise it. -/
theorem exec_fault_raisable {kind : FaultKind} (hrun : s.run = .running) (h : exec i s = .next t)
    (hfault : t.outcome = some (.haltedOnFault kind)) : kind.RaisableBy i := by
  have running : t.run = s.run → False := fun hkept => by
    rw [State.outcome_of_running (hkept.trans hrun)] at hfault
    cases hfault
  cases exec_effect i h with
  | outOfRange => cases hfault; exact (exec_checksSlots i s).only hrun h
  | divByZero hi => cases hfault; exact hi
  | underflow hi => cases hfault; exact hi
  | negative hi => cases hfault; exact hi
  | stopped => cases hfault
  | wroteReg | divided | jumped | fellThrough | compared | grew => exact (running rfl).elim

/-! ## The obligations -/

/-- Settles O20: both directions of `exec_checksSlots`; the example of the rule is run by the model. -/
theorem registerSlotsAreChecked : Obligations.RegisterSlotsAreChecked := by
  refine ⟨fun i s v hv hnone => ?raises, fun i s t hrun hslots h hfault => ?only,
    ⟨_, rfl, rfl, rfl, State.reset_x⟩⟩
  case raises =>
    exact ⟨_, (exec_checksSlots i s).raises ⟨v, hv, hnone⟩, raised_raiseFault _ s⟩
  case only =>
    obtain ⟨v, hv, hnone⟩ := exec_fault_raisable hrun h hfault
    exact hslots v hv hnone

/-- A divisor of 0 faults before the quotient and the remainder are written (R146, R206). -/
theorem execDiv_of_zero {i j k : Fin 32} (ha : ra.names i) (hb : rb.names j) (hd : rd.names k)
    (hzero : (s.x j).toInt = 0) : execDiv ra rb rd s = .next (s.raiseFault .divisionByZero) :=
  (withRegs3_of_index ha hb hd).trans (if_pos hzero)

theorem exec_div (ra rb rd : Slot) (s : State) : exec (.div ra rb rd) s = execDiv ra rb rd s := rfl

/-- Settles O30, by `execDiv_of_zero` and `exec_fault_raisable`; the example of the rule is run by the
model. -/
theorem divisionByZeroFaults : Obligations.DivisionByZeroFaults := by
  refine ⟨fun ra rb rd i j k s ha hb hd hzero => ?raises,
    fun i s t hrun h hfault => exec_fault_raisable hrun h hfault, ⟨_, rfl, rfl, rfl⟩⟩
  case raises =>
    exact ⟨_, (exec_div ra rb rd s).trans (execDiv_of_zero ha hb hd hzero), raised_raiseFault _ s⟩

/-- Settles O38, by `execAloc_of_neg` and `exec_fault_raisable`; the program of the rule is run by the
model. -/
theorem negativeAllocationFaults : Obligations.NegativeAllocationFaults := by
  refine ⟨fun ra b c i s ha hneg => ?raises,
    fun i s t hrun h hfault => exec_fault_raisable hrun h hfault, ⟨_, _, rfl, rfl, rfl, rfl, rfl⟩⟩
  case raises =>
    exact ⟨_, (exec_aloc ra b c s).trans (execAloc_of_neg ha hneg), raised_raiseFault _ s⟩

end Sys2Proof.Machine
end

section
/-!
PROOFS. The end of the program and beyond (60_exceptions.md rule R208): only a jump takes the pc past the
end, since a fetch advances it to the end at most.
-/

namespace Sys2Proof.Machine

variable {s t : State} {i : Instr}

/-- An instruction leaves the pc as the fetch left it, or is a jump that goes on. -/
theorem Effect.pc_eq_or_jumped (h : Effect i s t) :
    t.pc = s.pc ∨ i.isJump = true ∧ t.run = s.run := by
  cases h
  case jumped hi _ _ _ => exact .inr ⟨hi, rfl⟩
  all_goals exact .inl rfl

theorem pc_lt_of_fetched {I : Instruction} (h : s.program[s.pc]? = some I) :
    s.pc < s.program.length :=
  (List.getElem?_eq_some_iff.1 h).1

/-- A step that takes the pc past the end of the program fetched a jump, and the engine runs on. -/
theorem jump_of_step_past_end (hrun : s.run = .running) (hpc : s.pc ≤ s.program.length)
    (h : step s = .next t) (hpast : t.program.length < t.pc) :
    ∃ i, s.fetches i ∧ i.isJump = true ∧ t.run = .running := by
  obtain ⟨hprogram, -⟩ := step_keeps_program_and_capacity h
  rw [hprogram] at hpast
  rcases step_cases s with ⟨_, hhalted, -⟩ | ⟨-, hover, -⟩ | ⟨-, -, hs⟩ | ⟨_, -, hI, -, hs⟩ |
    ⟨I, i, -, hI, hi, hs⟩
  case inl => rw [hrun] at hhalted; cases hhalted
  case inr.inl => exact absurd hpc hover.not_ge
  case inr.inr.inl => rw [hs] at h; cases h; exact absurd hpc hpast.not_ge
  case inr.inr.inr.inl => rw [hs] at h; cases h; exact absurd (pc_lt_of_fetched hI) hpast.not_ge
  case inr.inr.inr.inr =>
    rw [hs] at h
    rcases (exec_effect i h).pc_eq_or_jumped with hkept | ⟨hjump, hgoes⟩
    · exact absurd (hkept.trans_le (pc_lt_of_fetched hI)) hpast.not_ge
    · refine ⟨i, ⟨hrun, ?_⟩, hjump, hgoes.trans hrun⟩
      rw [Instruction.toInstruction_of_instr? hi, hI]

/-- Settles O17: a fetch past the end faults, by `step_of_pastEnd`, and at the end exhausts, by
`step_of_end`; the program of the rule is run by the model. -/
theorem fetchPastEndFaults : Obligations.FetchPastEndFaults := by
  refine ⟨fun s hrun hover => ⟨_, step_of_pastEnd hrun hover, raised_raiseFault _ s⟩,
    fun s t hrun hpc h hpast => jump_of_step_past_end hrun hpc h hpast,
    fun s t hrun hend h => ?atEnd, ⟨_, rfl, rfl⟩, ⟨_, rfl, rfl⟩⟩
  case atEnd =>
    rw [step_of_end hrun hend] at h
    cases h
    rfl

end Sys2Proof.Machine
end

section
/-!
PROOFS. ILLEGAL (60_exceptions.md rule R210): both decoders give it for input that names no operation, and
a step that fetches it halts.
-/

namespace Sys2Proof

/-- A byte that is no operation's code selects ILLEGAL (R71). -/
theorem Opcode.fromCode_of_nineteen_le {b : Byte} (h : 19 ≤ b.toNat) :
    Opcode.fromCode b = .illegal := by
  by_contra hop
  have hle := Opcode.fromCode_ne_illegal_iff.1 hop
  omega

/-- A line with no mnemonic of the table decodes to ILLEGAL with its slots 0 (R91). -/
theorem decodeTokens_of_no_operation {ts : List Token}
    (h : ∀ m ∈ ts.filterMap Token.mnemonic?, Opcode.fromMnemonic m = .illegal) :
    decodeTokens ts = Instruction.illegalZero := by
  unfold decodeTokens
  split
  case h_1 m hm =>
    have hillegal : Opcode.fromMnemonic m = .illegal := h m (by rw [hm]; exact List.mem_cons_self)
    rw [hillegal]
    exact ite_self _
  case h_2 => rfl

namespace Machine

variable {s : State}

theorem sameData_setPc_halt (n : Nat) (o : HaltOutcome) (s : State) :
    SameData s ((s.setPc n).halt o) where
  regs _ := rfl
  equal := rfl
  remainder := rfl
  heap := ⟨rfl, fun _ => rfl⟩
  program := rfl
  capacity := rfl

/-- A step that fetches an ILLEGAL advances the pc past it and halts (R118). -/
theorem step_of_illegal {I : Instruction} (hrun : s.run = .running)
    (hI : s.program[s.pc]? = some I) (hop : I.opcode = .illegal) :
    step s = .next ((s.setPc (s.pc + 1)).halt .haltedOnIllegalOpcode) := by
  rw [step_of_fetched hrun hI, runInstruction_of_none (I.instr?_eq_none_iff.2 hop)]

/-- Settles O15: `step_of_illegal` for the engine, and one lemma for each of the two decoders. -/
theorem illegalOpcodeHalts : Obligations.IllegalOpcodeHalts := by
  refine ⟨fun s I hrun hI hop => ?halts, fun b0 b1 b2 b3 hb => ?byte, fun line hline => ?line,
    nofun, fun kind => nofun⟩
  case halts =>
    exact ⟨_, step_of_illegal hrun hI hop, sameData_setPc_halt _ _ s, rfl, rfl, rfl⟩
  case byte => rw [decodeGroup_opcode, Opcode.fromCode_of_nineteen_le hb]
  case line =>
    rw [decodeLine, decodeTokens_of_no_operation hline]
    rfl

end Machine

end Sys2Proof
end

section
/-!
PROOFS. The binary decoder and the encoder invert each other (30_encoding.md rules R75, R77 and
R83): what a group of four bytes decodes to, what an instruction encodes to, and that each undoes
the other. -/

namespace Sys2Proof

variable {op : Opcode} {b0 code : Byte} {v a b c : Slot} {i : Instr} {I : Instruction}
  {bytes : List Byte}

/-! ## One group -/

/-- A group whose opcode byte is not LOAD's copies its other bytes to the slots (R75). -/
theorem decodeGroup_of_ne_one (h : b0 ≠ 1) (b1 b2 b3 : Byte) :
    decodeGroup b0 b1 b2 b3 =
      ⟨Opcode.fromCode b0, Slot.ofByte b1, Slot.ofByte b2, Slot.ofByte b3⟩ := by
  have hop : Opcode.fromCode b0 ≠ .load :=
    mt (Opcode.fromCode_eq_iff (op := .load) (c := 1) (by decide)).1 h
  unfold decodeGroup
  split
  case h_1 hload => exact absurd hload hop
  case h_2 => rfl

/-- LOAD assembles its immediate from the last two bytes (R77). -/
theorem decodeGroup_one (b1 b2 b3 : Byte) :
    decodeGroup 1 b1 b2 b3 = ⟨.load, Slot.ofByte b1, Slot.ofImm16 b2 b3, 0⟩ := rfl

/-- Settles O4, by the two forms of a group and the values of zero-extended bytes. -/
theorem bytesFillSlots : Obligations.BytesFillSlots := by
  refine ⟨fun b0 b1 b2 b3 h => ?other, fun b1 b2 b3 => ?load⟩
  case other =>
    rw [decodeGroup_of_ne_one h]
    exact ⟨rfl, Slot.ofByte_toInt b1, Slot.ofByte_toInt b2, Slot.ofByte_toInt b3⟩
  case load =>
    refine ⟨rfl, Slot.ofByte_toInt b1, ?_, rfl⟩
    rw [decodeGroup_one, Slot.ofImm16_toInt, mul_comm]

/-! ## The bytes of LOAD's immediate -/

theorem Slot.ofImm16_toNat (hi lo : Byte) :
    (Slot.ofImm16 hi lo).toNat = 256 * hi.toNat + lo.toNat := by
  have h := Slot.ofImm16_toInt hi lo
  rw [BitVec.toInt_eq_toNat_cond] at h
  split at h <;> omega

@[simp] theorem Slot.highByte_ofImm16 (hi lo : Byte) : (Slot.ofImm16 hi lo).highByte = hi := by
  apply BitVec.eq_of_toNat_eq
  rw [Slot.highByte, BitVec.extractLsb'_toNat, Slot.ofImm16_toNat, Nat.shiftRight_eq_div_pow]
  omega

@[simp] theorem Slot.lowByte_ofImm16 (hi lo : Byte) : (Slot.ofImm16 hi lo).lowByte = lo := by
  apply BitVec.eq_of_toNat_eq
  rw [Slot.lowByte, BitVec.extractLsb'_toNat, Slot.ofImm16_toNat, Nat.shiftRight_zero]
  omega

/-- The two bytes of a slot that fits 16 bits, assembled again, are the slot. -/
theorem Slot.ofImm16_highByte_lowByte (h : v.fitsImm16 = true) :
    Slot.ofImm16 v.highByte v.lowByte = v := by
  have hv := (Slot.fitsImm16_iff v).1 h
  apply BitVec.eq_of_toNat_eq
  rw [Slot.ofImm16_toNat, Slot.highByte, Slot.lowByte, BitVec.extractLsb'_toNat,
    BitVec.extractLsb'_toNat, Nat.shiftRight_eq_div_pow, Nat.shiftRight_zero]
  omega

theorem Slot.fitsImm16_ofImm16 (hi lo : Byte) : (Slot.ofImm16 hi lo).fitsImm16 = true := by
  rw [Slot.fitsImm16_iff, Slot.ofImm16_toNat]
  omega

theorem Slot.fitsByte_ofByte (b : Byte) : (Slot.ofByte b).fitsByte = true := by
  rw [Slot.fitsByte_iff, Slot.ofByte, BitVec.toNat_setWidth]
  omega

theorem Slot.fitBytes_iff :
    Slot.fitBytes a b c = true ↔ a.fitsByte = true ∧ b.fitsByte = true ∧ c.fitsByte = true := by
  rw [Slot.fitBytes, Bool.and_eq_true, Bool.and_eq_true, and_assoc]

theorem Slot.fitBytes_ofByte (b1 b2 b3 : Byte) :
    Slot.fitBytes (Slot.ofByte b1) (Slot.ofByte b2) (Slot.ofByte b3) = true :=
  Slot.fitBytes_iff.2 ⟨Slot.fitsByte_ofByte b1, Slot.fitsByte_ofByte b2, Slot.fitsByte_ofByte b3⟩

/-! ## One instruction -/

/-- The encoding of an instruction other than LOAD: its opcode's code and a byte a slot (R83). -/
structure PlainEncoding (i : Instr) (code : Byte) : Prop where
  toCode : i.toInstruction.opcode.toCode? = some code
  code_ne : code ≠ 1
  encode_eq : encode i = [code, i.toInstruction.a.lowByte, i.toInstruction.b.lowByte,
    i.toInstruction.c.lowByte]
  wellFormed_eq :
    i.wellFormed = Slot.fitBytes i.toInstruction.a i.toInstruction.b i.toInstruction.c

/-- An instruction is a LOAD or has the plain encoding. -/
theorem load_or_plainEncoding (i : Instr) :
    (∃ rd imm c, i = .load rd imm c) ∨ ∃ code, PlainEncoding i code := by
  cases i
  case load rd imm c => exact .inl ⟨rd, imm, c, rfl⟩
  all_goals exact .inr ⟨_, rfl, by decide, rfl, rfl⟩

theorem load_wellFormed_iff {rd imm : Slot} : (Instr.load rd imm c).wellFormed = true ↔
    rd.fitsByte = true ∧ imm.fitsImm16 = true ∧ c = 0 := by
  rw [Instr.wellFormed, Bool.and_eq_true, Bool.and_eq_true, beq_iff_eq, and_assoc]

/-- The bytes of a well-formed instruction decode to it, whatever bytes come after them. -/
theorem decodeBinary_encode_append (h : i.wellFormed = true) (rest : List Byte) :
    decodeBinary (encode i ++ rest) = i.toInstruction :: decodeBinary rest := by
  rcases load_or_plainEncoding i with ⟨rd, imm, c, rfl⟩ | ⟨code, plain⟩
  case inl =>
    obtain ⟨hrd, himm, rfl⟩ := load_wellFormed_iff.1 h
    simp only [encode, List.cons_append, List.nil_append, decodeBinary_group, decodeGroup_one,
      Slot.ofByte_lowByte hrd, Slot.ofImm16_highByte_lowByte himm, Instr.toInstruction]
  case inr =>
    rw [plain.wellFormed_eq, Slot.fitBytes_iff] at h
    obtain ⟨ha, hb, hc⟩ := h
    obtain ⟨-, hcode⟩ := Opcode.toCode?_eq_some_iff.1 plain.toCode
    simp only [plain.encode_eq, List.cons_append, List.nil_append, decodeBinary_group,
      decodeGroup_of_ne_one plain.code_ne, hcode, Slot.ofByte_lowByte ha, Slot.ofByte_lowByte hb,
      Slot.ofByte_lowByte hc]

theorem decodeBinary_encode (h : i.wellFormed = true) :
    decodeBinary (encode i) = [i.toInstruction] := by
  rw [← List.append_nil (encode i), decodeBinary_encode_append h, decodeBinary_nil]

/-! ## Programs -/

theorem encodeProgram_cons (i : Instr) (program : List Instr) :
    encodeProgram (i :: program) = encode i ++ encodeProgram program := List.flatMap_cons

theorem encodeProgram_length (program : List Instr) :
    (encodeProgram program).length = 4 * program.length := by
  induction program with
  | nil => rfl
  | cons i program ih =>
    rw [encodeProgram_cons, List.length_append, encode_length, ih, List.length_cons]
    omega

theorem decodeBinary_encodeProgram {program : List Instr}
    (h : ∀ i ∈ program, i.wellFormed = true) :
    decodeBinary (encodeProgram program) = program.map Instr.toInstruction := by
  induction program with
  | nil => rfl
  | cons i program ih =>
    obtain ⟨hi, hrest⟩ := List.forall_mem_cons.1 h
    rw [encodeProgram_cons, decodeBinary_encode_append hi, ih hrest, List.map_cons]

/-- Settles O7, by induction on the program: the bytes of its first instruction are the first group,
and decode to that instruction. -/
theorem programSurvivesEncodeThenDecode : Obligations.ProgramSurvivesEncodeThenDecode := by
  intro program h
  refine ⟨encodeProgram_length program, ?_⟩
  rw [decodeBinary_encodeProgram h, List.map_map]
  exact List.map_congr_left fun i _ => i.toInstruction_instr?

/-! ## From bytes and back to bytes -/

/-- What has an encoding is a well-formed instruction of the table (R83). -/
theorem encodeInstruction?_eq_some_iff : encodeInstruction? I = some bytes ↔
    ∃ i, I.instr? = some i ∧ i.wellFormed = true ∧ encode i = bytes := by
  unfold encodeInstruction?
  cases I.instr? <;> simp

theorem encodeInstruction?_of_illegal (h : I.opcode = .illegal) : encodeInstruction? I = none := by
  rw [encodeInstruction?, I.instr?_eq_none_iff.2 h]

theorem encodeInstruction?_decodeGroup_one (b1 b2 b3 : Byte) :
    encodeInstruction? (decodeGroup 1 b1 b2 b3) = some [1, b1, b2, b3] := by
  refine encodeInstruction?_eq_some_iff.2 ⟨.load (Slot.ofByte b1) (Slot.ofImm16 b2 b3) 0, rfl,
    load_wellFormed_iff.2 ⟨Slot.fitsByte_ofByte b1, Slot.fitsImm16_ofImm16 b2 b3, rfl⟩, ?_⟩
  rw [encode, Slot.lowByte_ofByte, Slot.highByte_ofImm16, Slot.lowByte_ofImm16]

/-- A group with the code of an operation is re-encoded to itself. -/
theorem encodeInstruction?_decodeGroup (h : Opcode.fromCode b0 ≠ .illegal) (b1 b2 b3 : Byte) :
    encodeInstruction? (decodeGroup b0 b1 b2 b3) = some [b0, b1, b2, b3] := by
  by_cases hload : b0 = 1
  case pos => rw [hload, encodeInstruction?_decodeGroup_one]
  case neg =>
    have hgroup := decodeGroup_of_ne_one hload b1 b2 b3
    obtain ⟨i, hi⟩ : ∃ i, (decodeGroup b0 b1 b2 b3).instr? = some i := by
      rw [← Option.ne_none_iff_exists', ne_eq, Instruction.instr?_eq_none_iff, decodeGroup_opcode]
      exact h
    have hI := Instruction.toInstruction_of_instr? hi
    rw [hgroup] at hI
    refine encodeInstruction?_eq_some_iff.2 ⟨i, hi, ?_⟩
    rcases load_or_plainEncoding i with ⟨rd, imm, c, rfl⟩ | ⟨code, plain⟩
    case inl =>
      have hop : Opcode.load = Opcode.fromCode b0 := congrArg Instruction.opcode hI
      exact absurd ((Opcode.fromCode_eq_iff (by decide)).1 hop.symm) hload
    case inr =>
      have hcode := plain.toCode
      rw [hI, Opcode.toCode?_fromCode h, Option.some.injEq] at hcode
      rw [plain.wellFormed_eq, plain.encode_eq, hI, ← hcode]
      refine ⟨Slot.fitBytes_ofByte b1 b2 b3, ?_⟩
      rw [Slot.lowByte_ofByte, Slot.lowByte_ofByte, Slot.lowByte_ofByte]

/-- Settles O8: groups with a legal opcode byte by `encodeInstruction?_decodeGroup`, and the other
direction by `decodeBinary_encode`. -/
theorem groupSurvivesDecodeThenEncode : Obligations.GroupSurvivesDecodeThenEncode := by
  refine ⟨fun b0 b1 b2 b3 hb => ?legal, fun b0 b1 b2 b3 hb => ?illegal, fun I bytes h => ?back⟩
  case legal => exact encodeInstruction?_decodeGroup (Opcode.fromCode_ne_illegal_iff.2 hb) b1 b2 b3
  case illegal =>
    apply encodeInstruction?_of_illegal
    rw [decodeGroup_opcode, Opcode.fromCode_of_nineteen_le hb]
  case back =>
    obtain ⟨i, hi, hwf, rfl⟩ := encodeInstruction?_eq_some_iff.1 h
    rw [decodeBinary_encode hwf, Instruction.toInstruction_of_instr? hi]

/-- Settles O1: the ten words, decoded by the model. -/
theorem specWordsDecode : Obligations.SpecWordsDecode := by
  unfold Obligations.SpecWordsDecode
  decide

end Sys2Proof
end

section
/-!
PROOFS. A line decodes by the classes of its tokens (30_encoding.md rules R88 to R91), so tokens
that are directives or labels leave no trace, and a text decodes line by line (rule R92).
-/

namespace Sys2Proof

variable {ts us : List Token} {m t : List Char}

/-! ## A line from its tokens -/

/-- The operation that the only mnemonic token names, with the operands in order (R90). -/
theorem decodeTokens_of_operation (hm : ts.filterMap Token.mnemonic? = [m])
    (hop : Opcode.fromMnemonic m ≠ .illegal) (hgood : Token.malformed ∉ ts)
    (hlen : (ts.filterMap Token.operand?).length ≤ 3) :
    decodeTokens ts = fillSlots (Opcode.fromMnemonic m) (ts.filterMap Token.operand?) := by
  have hkeep : ¬ (ts.contains .malformed ||
      decide (3 < (ts.filterMap Token.operand?).length)) = true := by
    rw [Bool.or_eq_true, List.contains_iff_mem, decide_eq_true_eq, not_or]
    exact ⟨hgood, hlen.not_gt⟩
  unfold decodeTokens
  rw [hm]
  dsimp only
  rw [if_neg hkeep]
  split
  case h_1 hillegal => exact absurd hillegal hop
  case h_2 => rfl

/-- A line with a malformed token or a fourth operand decodes to ILLEGAL (R91). -/
theorem decodeTokens_of_malformed
    (h : Token.malformed ∈ ts ∨ 3 < (ts.filterMap Token.operand?).length) :
    decodeTokens ts = Instruction.illegalZero := by
  have hdrop : (ts.contains .malformed ||
      decide (3 < (ts.filterMap Token.operand?).length)) = true := by
    rwa [Bool.or_eq_true, List.contains_iff_mem, decide_eq_true_eq]
  unfold decodeTokens
  split
  case h_1 => exact if_pos hdrop
  case h_2 => rfl

/-- A line whose mnemonic tokens are not a single known one decodes to ILLEGAL (R91). -/
theorem decodeTokens_of_not_one_operation
    (h : ¬ ∃ m, ts.filterMap Token.mnemonic? = [m] ∧ Opcode.fromMnemonic m ≠ .illegal) :
    decodeTokens ts = Instruction.illegalZero := by
  unfold decodeTokens
  split
  case h_1 m hm =>
    have hillegal : Opcode.fromMnemonic m = .illegal := by
      by_contra hop
      exact h ⟨m, hm, hop⟩
    rw [hillegal]
    exact ite_self _
  case h_2 => rfl

/-- Settles O9, by the three cases of `decodeTokens`. -/
theorem lineDecodesByItsTokens : Obligations.LineDecodesByItsTokens := by
  rintro line _ rfl
  refine ⟨fun m hm hop hgood hlen => decodeTokens_of_operation hm hop hgood hlen, ?_⟩
  rintro (hnone | hbad)
  · exact decodeTokens_of_not_one_operation hnone
  · exact decodeTokens_of_malformed hbad

/-! ## Directives and labels -/

/-- A directive token counts neither as a mnemonic, nor as an operand, nor as malformed (R87). -/
theorem decodeTokens_append_directive :
    decodeTokens (ts ++ .directive :: us) = decodeTokens (ts ++ us) := by
  have hmnemonic : (ts ++ .directive :: us).filterMap Token.mnemonic? =
      (ts ++ us).filterMap Token.mnemonic? := by
    rw [List.filterMap_append, List.filterMap_append, List.filterMap_cons_none rfl]
  have hoperand : (ts ++ .directive :: us).filterMap Token.operand? =
      (ts ++ us).filterMap Token.operand? := by
    rw [List.filterMap_append, List.filterMap_append, List.filterMap_cons_none rfl]
  have hmalformed : (ts ++ .directive :: us).contains .malformed =
      (ts ++ us).contains .malformed := by
    rw [Bool.eq_iff_iff, List.contains_iff_mem, List.contains_iff_mem]
    simp
  rw [decodeTokens, hmnemonic, hoperand, hmalformed, ← decodeTokens]

/-- The tests of R89 that make a token a directive or a label, the first character's first. -/
theorem classify_eq_directive (h : t.head? = some '.' ∨ t.head? = some '@' ∨
    (t.getLast? = some ':' ∧ t.head? ≠ some '$' ∧ t.head? ≠ some '#')) :
    classify t = .directive := by
  unfold classify
  split
  case h_1 => simp at h
  case h_2 => simp at h
  case h_3 => rfl
  case h_4 => rfl
  case h_5 hdot hat =>
    have hfirst : t.head? ≠ some '.' ∧ t.head? ≠ some '@' := by
      constructor
      · exact fun hhead => (List.head?_eq_some_iff.1 hhead).elim hdot
      · exact fun hhead => (List.head?_eq_some_iff.1 hhead).elim hat
    obtain ⟨hlast, -⟩ := (h.resolve_left hfirst.1).resolve_left hfirst.2
    exact if_pos hlast

/-- Settles O10: the token stands between spaces, so it is one token of the line, a directive. -/
theorem directiveTokensAreInert : Obligations.DirectiveTokensAreInert := by
  intro before token after hne hspace hkind
  have hsplit : splitTokens (before ++ ' ' :: token ++ ' ' :: after) =
      splitTokens before ++ token :: splitTokens after := by
    rw [splitTokens_append_space _ _ rfl, splitTokens_append_space _ _ rfl,
      splitTokens_run token hne hspace, List.append_assoc, List.singleton_append]
  rw [decodeLine, decodeLine, hsplit, splitTokens_append_space _ _ rfl, List.map_append,
    List.map_cons, classify_eq_directive hkind, decodeTokens_append_directive, List.map_append]

/-! ## Lines of a text -/

theorem toNat_ne_lineFeed {line : List Char} (h : ∀ ch ∈ line, ch ≠ '\n') :
    ∀ ch ∈ line, ch.toNat ≠ 0x0A :=
  fun ch hch hfeed => h ch hch (Char.toNat_inj.1 hfeed)

/-- Settles O12: the text is cut at each line feed, and each line is decoded by itself. -/
theorem textDecodesLineByLine : Obligations.TextDecodesLineByLine := by
  refine ⟨rfl, fun line rest h => ?_, fun line hne h => ?_⟩
  · rw [decodeText, cutLines_append line rest (toNat_ne_lineFeed h), List.map_cons, ← decodeText]
  · rw [decodeText, cutLines_run line hne (toNat_ne_lineFeed h), List.map_singleton]

end Sys2Proof
end

section
/-!
PROOFS. Number tokens (30_encoding.md rules R85 and R86): a digit string is read as its decimal
value, and the token is malformed beyond its range.
-/

namespace Sys2Proof

variable {ds : List Char} {ch : Char} {n : Nat}

/-! ## Number tokens from what their digits are read as -/

theorem classify_dollar (body : List Char) : classify ('$' :: body) = registerToken body := rfl

theorem classify_hash (body : List Char) : classify ('#' :: body) = immediateToken body := rfl

theorem registerToken_of_digits (h : parseDigits ds = some n) :
    registerToken ds = if n ≤ 2147483647 then .register (BitVec.ofNat 32 n) else .malformed := by
  rw [registerToken, h]

theorem immediateToken_of_minus_digits (h : parseDigits ds = some n) :
    immediateToken ('-' :: ds) =
      if n ≤ 2147483648 then .immediate (BitVec.ofInt 32 (-(n : Int))) else .malformed := by
  simp only [immediateToken, h]

/-- What is not a digit makes a string no number (R84). -/
theorem parseDigits_cons_eq_none (h : isDigit ch = false) : parseDigits (ch :: ds) = none := by
  rw [parseDigits, if_neg]
  rw [List.all_cons, h, Bool.false_and]
  exact fun hall => Bool.false_ne_true hall.2

theorem immediateToken_of_digits (h : parseDigits ds = some n) :
    immediateToken ds =
      if n ≤ 2147483647 then .immediate (BitVec.ofNat 32 n) else .malformed := by
  unfold immediateToken
  split
  case h_1 ds' =>
    rw [parseDigits_cons_eq_none rfl] at h
    cases h
  case h_2 => rw [h]

theorem registerToken_of_not_digit (h : isDigit ch = false) :
    registerToken (ch :: ds) = .malformed := by
  rw [registerToken, parseDigits_cons_eq_none h]

theorem immediateToken_of_not_digit (hminus : ch ≠ '-') (h : isDigit ch = false) :
    immediateToken (ch :: ds) = .malformed := by
  unfold immediateToken
  split
  case h_1 hcons => exact absurd (List.cons.inj hcons).1 hminus
  case h_2 => rw [parseDigits_cons_eq_none h]

/-! ## Any digit string -/

/-- A digit string is read as its decimal value, leading zeros included (R84). -/
theorem parseDigits_map_digitChar {digits : List (Fin 10)} (hne : digits ≠ []) :
    parseDigits (digits.map fun d => Char.ofNat (48 + d.val)) =
      some (digits.foldl (fun n d => n * 10 + d.val) 0) := by
  refine parseDigits_eq_some_iff.2 ⟨⟨mt List.map_eq_nil_iff.1 hne, ?digits⟩, ?value⟩
  case digits =>
    rw [List.all_map, List.all_eq_true]
    exact fun d _ => isDigit_digitChar d.isLt
  case value =>
    have hstep : ∀ (n : Nat) (d : Fin 10),
        10 * n + ((Char.ofNat (48 + d.val)).toNat - 0x30) = n * 10 + d.val := fun n d => by
      have hd : (Char.ofNat (48 + d.val)).toNat = 48 + d.val := digitChar_toNat d.val d.isLt
      omega
    simp only [List.foldl_map, hstep]

/-- Settles O11: the digits are read by `parseDigits_map_digitChar`, and each kind of token tests
its range. -/
theorem numberTokensAreDecimal : Obligations.NumberTokensAreDecimal := by
  rintro digits n _ hne hn rfl
  have hparse := parseDigits_map_digitChar hne
  rw [← hn] at hparse
  have hreg := registerToken_of_digits hparse
  have himm := immediateToken_of_digits hparse
  have hneg := immediateToken_of_minus_digits hparse
  refine ⟨fun h => ?_, fun h => ?_, fun h => ?_, fun h => ⟨?_, ?_⟩, fun h => ?_, ?_, ?_⟩
  · exact hreg.trans (if_pos (by omega))
  · exact himm.trans (if_pos (by omega))
  · exact hneg.trans (if_pos (by omega))
  · exact hreg.trans (if_neg (by omega))
  · exact himm.trans (if_neg (by omega))
  · exact hneg.trans (if_neg (by omega))
  · rw [classify_dollar, registerToken_of_not_digit (by decide)]
  · rw [classify_hash, immediateToken_of_not_digit (by decide) (by decide)]

end Sys2Proof
end

section
/-!
PROOFS. The line that the model writes for an instruction decodes to it (30_encoding.md rules R84
to R91): each slot is written as a token that is read back as the slot, whatever its sign.
-/

namespace Sys2Proof

variable {text m : List Char} {v : Slot} {op : Opcode}

/-! ## Tokens that are read back as a slot -/

/-- A text that stands in a line as one operand token, of the value `v`. -/
structure IsOperand (text : List Char) (v : Slot) : Prop where
  split : splitTokens text = [text]
  operand : (classify text).operand? = some v

theorem natAbs_toInt_le (v : Slot) : v.toInt.natAbs ≤ 2147483648 := by
  have hlo := BitVec.le_toInt v
  have hhi := BitVec.toInt_lt (x := v)
  omega

theorem parseDigits_decimal_natAbs (v : Slot) :
    parseDigits (decimal v.toInt.natAbs) = some v.toInt.natAbs :=
  parseDigits_decimal ((natAbs_toInt_le v).trans_lt (by decide))

theorem decimal_natAbs_not_space (v : Slot) :
    ∀ ch ∈ decimal v.toInt.natAbs, isSpace ch = false := by
  obtain ⟨⟨-, hdigits⟩, -⟩ := parseDigits_eq_some_iff.1 (parseDigits_decimal_natAbs v)
  exact fun ch hch => isSpace_of_isDigit (List.all_eq_true.1 hdigits ch hch)

theorem isOperand_registerText_of_nonneg (h : 0 ≤ v.toInt) : IsOperand (registerText v) v where
  split := splitTokens_registerText h
  operand := by rw [classify_registerText h]; rfl

/-- An immediate token is read back as the slot it was written for, of either sign (R86). -/
theorem isOperand_immediateText (v : Slot) : IsOperand (immediateText v) v := by
  have hdigits := decimal_natAbs_not_space v
  have hparse := parseDigits_decimal_natAbs v
  have hbound := natAbs_toInt_le v
  rw [immediateText]
  split
  case isTrue hneg =>
    refine ⟨splitTokens_run _ (List.cons_ne_nil _ _) ?_, ?_⟩
    · rw [List.forall_mem_cons, List.forall_mem_cons]
      exact ⟨rfl, rfl, hdigits⟩
    · have hclass := (immediateToken_of_minus_digits hparse).trans (if_pos hbound)
      have hvalue : -(v.toInt.natAbs : Int) = v.toInt := by omega
      rw [hvalue, BitVec.ofInt_toInt] at hclass
      exact congrArg Token.operand? hclass
  case isFalse hneg =>
    refine ⟨splitTokens_run _ (List.cons_ne_nil _ _) ?_, ?_⟩
    · rw [List.forall_mem_cons]
      exact ⟨rfl, hdigits⟩
    · have hmax := BitVec.toInt_lt (x := v)
      have hclass := (immediateToken_of_digits hparse).trans (if_pos (by omega))
      have hvalue : BitVec.ofNat 32 v.toInt.natAbs = v := by
        rw [natAbs_toInt_of_nonneg (not_lt.1 hneg), BitVec.ofNat_toNat, BitVec.setWidth_eq]
      rw [hvalue] at hclass
      exact congrArg Token.operand? hclass

/-- A slot is read back from the token it is written as, whichever kind that is (R90, log 11). -/
theorem isOperand_registerText (v : Slot) : IsOperand (registerText v) v := by
  by_cases hneg : v.toInt < 0
  · rw [registerText, if_pos hneg]
    exact isOperand_immediateText v
  · exact isOperand_registerText_of_nonneg (not_lt.1 hneg)

/-! ## A mnemonic and its operands -/

/-- A text that stands in a line as one mnemonic token, of the operation `op`. -/
structure IsMnemonic (m : List Char) (op : Opcode) : Prop where
  split : splitTokens m = [m]
  mnemonic : classify m = .mnemonic m
  fromMnemonic : Opcode.fromMnemonic m = op
  legal : op ≠ .illegal

/-- The line of a mnemonic and operand texts, each after a space (R84). -/
def lineOfTexts (m : List Char) (texts : List (List Char)) : List Char :=
  texts.foldl (fun line text => line ++ ' ' :: text) m

/-- The texts stand as one token each. -/
theorem splitTokens_lineOfTexts {texts : List (List Char)}
    (h : ∀ text ∈ texts, splitTokens text = [text]) (line : List Char) :
    splitTokens (lineOfTexts line texts) = splitTokens line ++ texts := by
  induction texts generalizing line with
  | nil => exact (List.append_nil _).symm
  | cons text texts ih =>
    obtain ⟨htext, hrest⟩ := List.forall_mem_cons.1 h
    rw [lineOfTexts, List.foldl_cons, ← lineOfTexts, ih hrest, splitTokens_append_space _ _ rfl,
      htext, List.append_assoc, List.singleton_append]

/-- An operand token is no mnemonic and is not malformed. -/
theorem Token.of_operand? {t : Token} (h : t.operand? = some v) :
    t.mnemonic? = none ∧ t ≠ .malformed := by
  cases t with
  | register | immediate => exact ⟨rfl, nofun⟩
  | directive | mnemonic | malformed => cases h

/-- The tokens of operand texts: their slots in order, and nothing else (R90). -/
theorem map_classify_of_isOperand {texts : List (List Char)} {slots : List Slot}
    (h : List.Forall₂ IsOperand texts slots) :
    (∀ text ∈ texts, splitTokens text = [text]) ∧
      (texts.map classify).filterMap Token.operand? = slots ∧
      (texts.map classify).filterMap Token.mnemonic? = [] ∧
      Token.malformed ∉ texts.map classify := by
  induction h with
  | nil => exact ⟨nofun, rfl, rfl, nofun⟩
  | cons htext _ ih =>
    obtain ⟨hsplit, hoperands, hmnemonics, hgood⟩ := ih
    obtain ⟨hmnemonic, hne⟩ := Token.of_operand? htext.operand
    refine ⟨List.forall_mem_cons.2 ⟨htext.split, hsplit⟩, ?_, ?_, ?_⟩
    · rw [List.map_cons, List.filterMap_cons_some htext.operand, hoperands]
    · rw [List.map_cons, List.filterMap_cons_none hmnemonic, hmnemonics]
    · rw [List.map_cons, List.mem_cons, not_or]
      exact ⟨hne.symm, hgood⟩

/-- A mnemonic with at most three operands decodes to its operation on them (R90). -/
theorem decodeLine_lineOfTexts {texts : List (List Char)} {slots : List Slot}
    (hm : IsMnemonic m op) (htexts : List.Forall₂ IsOperand texts slots)
    (hlen : slots.length ≤ 3) : decodeLine (lineOfTexts m texts) = fillSlots op slots := by
  obtain ⟨hsplit, hoperands, hmnemonics, hgood⟩ := map_classify_of_isOperand htexts
  have htokens : (splitTokens (lineOfTexts m texts)).map classify =
      .mnemonic m :: texts.map classify := by
    rw [splitTokens_lineOfTexts hsplit, hm.split, List.singleton_append, List.map_cons, hm.mnemonic]
  have hslots : (Token.mnemonic m :: texts.map classify).filterMap Token.operand? = slots := by
    rw [List.filterMap_cons_none rfl, hoperands]
  have hone : (Token.mnemonic m :: texts.map classify).filterMap Token.mnemonic? = [m] := by
    rw [List.filterMap_cons_some (f := Token.mnemonic?) (a := .mnemonic m) rfl, hmnemonics]
  rw [decodeLine, htokens, decodeTokens_of_operation hone (hm.fromMnemonic ▸ hm.legal) ?_ ?_,
    hslots, hm.fromMnemonic]
  · rw [List.mem_cons, not_or]
    exact ⟨nofun, hgood⟩
  · rw [hslots]
    exact hlen

/-! ## The line of an instruction -/

/-- Every mnemonic of the opcode table stands in a line as one mnemonic token (R88, R89). -/
theorem opcodeTable_mnemonics : ∀ r ∈ opcodeTable,
    splitTokens r.mnemonic = [r.mnemonic] ∧ classify r.mnemonic = .mnemonic r.mnemonic := by decide

theorem Opcode.isMnemonic_of_mnemonic? (h : op.mnemonic? = some m) : IsMnemonic m op := by
  obtain ⟨hop, hfrom⟩ := Opcode.mnemonic?_eq_some_iff.1 h
  obtain ⟨r, hr, -, rfl⟩ := (find?_map_eq_some_iff opcodeTable_distinct.2.2 OpcodeRow.mnemonic).1 h
  obtain ⟨hsplit, hclass⟩ := opcodeTable_mnemonics r hr
  exact ⟨hsplit, hclass, hfrom, hop⟩

/-- Every instruction's operation has a mnemonic; ILLEGAL alone has none (R70). -/
theorem Instr.exists_mnemonic (i : Instr) : ∃ m, i.toInstruction.opcode.mnemonic? = some m := by
  cases i <;> exact ⟨_, rfl⟩

/-- The line of an instruction is its mnemonic and three texts, each read back as its slot. -/
theorem exists_lineOf_eq (i : Instr) (hm : i.toInstruction.opcode.mnemonic? = some m) :
    ∃ second, IsOperand second i.toInstruction.b ∧
      lineOf i = lineOfTexts m [registerText i.toInstruction.a, second,
        registerText i.toInstruction.c] := by
  unfold lineOf
  dsimp only
  rw [hm]
  split
  · exact ⟨_, isOperand_immediateText _, rfl⟩
  · exact ⟨_, isOperand_registerText _, rfl⟩

/-- Settles O13: each of the three texts is read back as its slot, and the mnemonic as its
operation. -/
theorem lineOfInstructionDecodesBack : Obligations.LineOfInstructionDecodesBack := by
  intro i
  obtain ⟨m, hm⟩ := i.exists_mnemonic
  obtain ⟨second, hsecond, hline⟩ := exists_lineOf_eq i hm
  have hoperands := List.Forall₂.cons (isOperand_registerText i.toInstruction.a)
    (.cons hsecond (.cons (isOperand_registerText i.toInstruction.c) .nil))
  rw [hline, decodeLine_lineOfTexts (Opcode.isMnemonic_of_mnemonic? hm) hoperands le_rfl]
  rfl

end Sys2Proof
end

section
/-!
PROOFS. The invariant of the machine (10_state.md rule R27, 20_memory.md rules R52 to R56): every
step keeps it, reset gives it and Append keeps it.
-/

namespace Sys2Proof.Machine

variable {s t : State} {i : Instr}

/-! ## The pc -/

/-- An instruction takes the pc at most the greatest register value beyond where the
fetch left it. -/
theorem Effect.pc_le (h : Effect i s t) : t.pc ≤ s.pc + 2 ^ 31 := by
  cases h
  case jumped d h0 hd _ => rw [State.setPc_pc]; omega
  all_goals exact Nat.le_add_right _ _

/-- A step keeps the pc, or fetched an Instruction and takes the pc a bounded distance. -/
theorem step_pc_eq_or_le (h : step s = .next t) :
    t.pc = s.pc ∨ s.pc < s.program.length ∧ t.pc ≤ s.pc + 1 + 2 ^ 31 := by
  rcases step_cases s with ⟨_, -, hs⟩ | ⟨-, -, hs⟩ | ⟨-, -, hs⟩ | ⟨_, -, hI, -, hs⟩ |
    ⟨_, i, -, hI, -, hs⟩ <;> rw [hs] at h
  case inr.inr.inr.inl => cases h; exact .inr ⟨pc_lt_of_fetched hI, Nat.le_add_right _ _⟩
  case inr.inr.inr.inr => exact .inr ⟨pc_lt_of_fetched hI, (exec_effect i h).pc_le⟩
  all_goals cases h; exact .inl rfl

/-- The program has at most 2^31 - 1 instructions, so no jump out of it passes 32 bits (R27). -/
theorem step_keeps_pc_lt (hinv : s.Inv) (h : step s = .next t) : t.pc < 2 ^ 32 := by
  have hpc := hinv.pc_lt
  have hprogram := hinv.program_le
  have hmax := s.capacity.programMax.isLt
  rcases step_pc_eq_or_le h with hsame | ⟨hin, hle⟩ <;> omega

/-! ## The heap -/

/-- Growth of a heap of zero bytes gives a heap of zero bytes (R53). -/
theorem Memory.zero_grow {m : Memory} (hwf : m.wf = true)
    (hzero : ∀ a, a < m.len → m.byte? a = some 0) (n : Nat) :
    ∀ a, a < (m.grow n).len → (m.grow n).byte? a = some 0 := by
  intro a ha
  rcases Nat.lt_or_ge a m.len with hold | hnew
  · rw [Memory.byte?_grow_of_old hwf n hold, hzero a hold]
  · exact Memory.byte?_grow_of_new hwf hnew ha

/-- Settles O44: each part of the invariant from what a step does to the state it speaks of. -/
theorem stepKeepsInvariant : Obligations.StepKeepsInvariant := by
  intro s t hinv h
  obtain ⟨hprogram, hcapacity⟩ := step_keeps_program_and_capacity h
  have hpc := step_keeps_pc_lt hinv h
  have hfits : t.program.length ≤ t.capacity.programMax := by
    rw [hprogram, hcapacity]
    exact hinv.program_le
  rcases step_heap_eq_or_grew h with hsame | ⟨-, n, hmay, hgrew⟩
  case inl =>
    refine ⟨hfits, hpc, hsame ▸ hinv.heap_wf, hsame ▸ hinv.heap_zero, ?_⟩
    rw [State.heapWithinMax, hsame, hcapacity]
    exact hinv.heap_le
  case inr =>
    refine ⟨hfits, hpc, ?_, ?_, ?_⟩
    · exact hgrew ▸ Memory.wf_grow s.heap n hinv.heap_wf
    · exact hgrew ▸ Memory.zero_grow hinv.heap_wf hinv.heap_zero n
    · rw [State.heapWithinMax, hgrew, hcapacity]
      exact (heapMayGrow_iff n s).1 hmay

/-! ## The host's operations -/

/-- A reset to any program within PROGRAM_MAX meets the invariant (R231). -/
theorem inv_of_reset {P : List Instruction} {capacity : Config}
    (h : P.length ≤ capacity.programMax) :
    State.Inv { State.reset with program := P, capacity := capacity } where
  program_le := h
  pc_lt := Nat.two_pow_pos 32
  heap_wf := reset_heap_wf
  heap_zero _ ha := absurd ha (Nat.not_lt_zero _)
  heap_le bound _ := Nat.zero_le bound

theorem hostReset_inv {P : List Instruction} (h : hostReset P s = .next t) : t.Inv := by
  obtain ⟨hfits, rfl⟩ := hostReset_next_iff.1 h
  exact inv_of_reset hfits

theorem hostAppend_inv {I : Instruction} (hinv : s.Inv) (h : hostAppend I s = .next t) : t.Inv := by
  obtain ⟨hroom, rfl⟩ := hostAppend_next_iff.1 h
  refine { hinv with program_le := ?_ }
  rw [List.length_append]
  exact hroom

/-- Settles O45: the reset state is a reset to the empty program. -/
theorem resetMeetsInvariant : Obligations.ResetMeetsInvariant :=
  inv_of_reset (P := []) (Nat.zero_le _)

/-- Settles O46: both loads are resets. -/
theorem hostOperationsKeepInvariant : Obligations.HostOperationsKeepInvariant :=
  ⟨fun _ _ _ h => hostReset_inv h, fun _ _ _ h => hostReset_inv h, fun _ _ _ h => hostReset_inv h,
    fun _ _ _ hinv h => hostAppend_inv hinv h⟩

end Sys2Proof.Machine
end

section
/-!
PROOFS. How a step ends (40_engine_step.md rules R111 to R119; 60_exceptions.md rules R201 to
R215): it halts, with all of the state but the pc and the run state as it was, or runs on by the
effect of the instruction it fetched; each outcome has its cause in that step.
-/

namespace Sys2Proof.Machine

variable {s t : State} {i : Instr} {o : HaltOutcome}

/-! ## Halted engines and failed fetches -/

/-- Settles O18: `step_of_halted`, and an append writes the program store alone. -/
theorem haltedEngineStays : Obligations.HaltedEngineStays := by
  have report : ∀ {s : State} {o : HaltOutcome}, s.run = .halted o →
      hostStep s = .next (s, .halted o) := fun {s o} h => by
    rw [hostStep, step_of_halted h]
    simp only [State.report, h]
  refine ⟨fun s o h => ⟨step_of_halted h, report h⟩, fun s t I o h happend => ?_⟩
  obtain ⟨-, rfl⟩ := hostAppend_next_iff.1 happend
  exact report h

/-- Settles O16, by `step_of_end`; the empty program ends at its first fetch. -/
theorem exhaustionHalts : Obligations.ExhaustionHalts :=
  ⟨fun s hrun hend => ⟨_, step_of_end hrun hend, halted_halt _ s⟩, rfl,
    ⟨_, step_of_end rfl rfl, halted_halt _ _, rfl⟩⟩

/-! ## Instructions that halt -/

/-- What an instruction that halts the engine with this outcome must be (R117, R204). -/
def HaltOutcome.EndOf (i : Instr) : HaltOutcome → Prop
  | .haltedNormally => i.isHlt
  | .haltedOnIllegalOpcode => False
  | .haltedOnFault kind => kind.RaisableBy i
  | .haltedOnExhaustion => False

/-- An engine that was Running and now has an outcome has changed its run state (R32). -/
theorem State.run_ne_of_outcome (hrun : s.run = .running) (hhalt : t.outcome = some o) :
    t.run ≠ s.run := by
  intro hkept
  rw [State.outcome_of_running (hkept.trans hrun)] at hhalt
  cases hhalt

/-- An instruction that halts the engine writes nothing but the run state (R116, R204). -/
theorem exec_eq_halt (hrun : s.run = .running) (h : exec i s = .next t)
    (hhalt : t.outcome = some o) : t = s.halt o ∧ o.EndOf i := by
  have hchanged := State.run_ne_of_outcome hrun hhalt
  cases exec_effect i h with
  | outOfRange | divByZero | underflow | negative =>
    cases hhalt
    exact ⟨rfl, exec_fault_raisable hrun h rfl⟩
  | stopped hi => cases hhalt; exact ⟨rfl, hi⟩
  | wroteReg | divided | jumped | fellThrough | compared | grew => exact absurd rfl hchanged

/-- Only a divisor of 0 makes DIV end in DivisionByZero (R206). -/
theorem divisor_eq_zero_of_exec {ra rb rd : Slot} (hrun : s.run = .running)
    (h : exec (.div ra rb rd) s = .next t)
    (hfault : t.outcome = some (.haltedOnFault .divisionByZero)) :
    ∃ j, rb.names j ∧ (s.x j).toInt = 0 := by
  rw [exec_div, execDiv] at h
  rcases withRegs3_cases ra rb rd s _ with hout | ⟨i, j, k, -, hb, -, hbody⟩
  case inl => rw [hout] at h; cases h; cases hfault
  case inr =>
    rw [hbody] at h
    by_cases hzero : s.xInt j = 0
    case pos => exact ⟨j, hb, hzero⟩
    case neg =>
      rw [if_neg hzero] at h
      cases h
      exact absurd rfl (State.run_ne_of_outcome hrun hfault)

/-- A slot that is not out of range names a register (R114). -/
theorem exists_names_of_not_namesNone {a : Slot} (h : ¬ a.namesNone) : ∃ i, a.names i := by
  cases hi : regIndex? a with
  | none => exact absurd ((regIndex?_eq_none_iff a).1 hi) h
  | some i => exact ⟨i, (regIndex?_eq_some_iff a i).1 hi⟩

/-- Only a negative amount makes ALOC end in NegativeAllocation (R209). -/
theorem amount_neg_of_exec {ra b c : Slot} (hrun : s.run = .running)
    (h : exec (.aloc ra b c) s = .next t)
    (hfault : t.outcome = some (.haltedOnFault .negativeAllocation)) :
    ∃ j, ra.names j ∧ (s.x j).toInt < 0 := by
  by_cases hnone : ra.namesNone
  case pos => rw [exec_aloc, execAloc_of_namesNone hnone] at h; cases h; cases hfault
  case neg =>
    obtain ⟨j, ha⟩ := exists_names_of_not_namesNone hnone
    refine ⟨j, ha, lt_of_not_ge fun hamount => ?_⟩
    rw [exec_aloc, execAloc_of_nonneg ha hamount, heapGrow_next_iff] at h
    obtain ⟨-, rfl⟩ := h
    exact absurd rfl (State.run_ne_of_outcome hrun hfault)

/-! ## Steps that halt -/

/-- The four ways in which a step of a Running engine ends it (R115). -/
inductive StepEnd (s : State) : HaltOutcome → State → Prop
  | pastEnd (hpc : s.program.length < s.pc) :
      StepEnd s (.haltedOnFault .programCounterOverflow)
        (s.halt (.haltedOnFault .programCounterOverflow))
  | atEnd (hpc : s.pc = s.program.length) :
      StepEnd s .haltedOnExhaustion (s.halt .haltedOnExhaustion)
  | illegal {I : Instruction} (hI : s.program[s.pc]? = some I) (hop : I.opcode = .illegal) :
      StepEnd s .haltedOnIllegalOpcode ((s.setPc (s.pc + 1)).halt .haltedOnIllegalOpcode)
  | byInstr {i : Instr} {o : HaltOutcome} (hi : s.fetches i)
      (hexec : exec i (s.setPc (s.pc + 1)) = .next ((s.setPc (s.pc + 1)).halt o))
      (hend : o.EndOf i) : StepEnd s o ((s.setPc (s.pc + 1)).halt o)

/-- The instruction dispatched to is the one the engine fetches (R112). -/
theorem fetches_of_instr? {I : Instruction} (hrun : s.run = .running)
    (hI : s.program[s.pc]? = some I) (hi : I.instr? = some i) : s.fetches i := by
  refine ⟨hrun, ?_⟩
  rw [Instruction.toInstruction_of_instr? hi, hI]

theorem step_end (hrun : s.run = .running) (h : step s = .next t) (hhalt : t.outcome = some o) :
    StepEnd s o t := by
  rcases step_cases s with ⟨_, hhalted, -⟩ | ⟨-, hpc, hs⟩ | ⟨-, hpc, hs⟩ | ⟨I, -, hI, hi, hs⟩ |
    ⟨I, i, -, hI, hi, hs⟩
  case inl => rw [hrun] at hhalted; cases hhalted
  case inr.inl => rw [hs] at h; cases h; cases hhalt; exact .pastEnd hpc
  case inr.inr.inl => rw [hs] at h; cases h; cases hhalt; exact .atEnd hpc
  case inr.inr.inr.inl =>
    rw [hs] at h; cases h; cases hhalt
    exact .illegal hI (I.instr?_eq_none_iff.1 hi)
  case inr.inr.inr.inr =>
    rw [hs] at h
    obtain ⟨rfl, hend⟩ := exec_eq_halt (s := s.setPc (s.pc + 1)) hrun h hhalt
    exact .byInstr (fetches_of_instr? hrun hI hi) h hend

theorem State.exists_outcome_of_halted (h : t.runState = .halted) : ∃ o, t.outcome = some o := by
  rw [← Option.ne_none_iff_exists', ne_eq, State.outcome_eq_none_iff, h]
  exact nofun

/-- Settles O21: in each of the four ends the pc is what the fetch left, and the
rest is as it was. -/
theorem haltingStepWritesNothingElse : Obligations.HaltingStepWritesNothingElse := by
  intro s t hrun h hhalted
  obtain ⟨o, hhalt⟩ := State.exists_outcome_of_halted hhalted
  cases step_end hrun h hhalt with
  | pastEnd hpc => exact ⟨(halted_halt _ s).toSameData, (if_neg hpc.not_gt).symm⟩
  | atEnd hpc => exact ⟨(halted_halt _ s).toSameData, (if_neg hpc.not_lt).symm⟩
  | illegal hI => exact ⟨sameData_setPc_halt _ _ s, (if_pos (pc_lt_of_fetched hI)).symm⟩
  | byInstr hi => exact ⟨sameData_setPc_halt _ _ s, (if_pos (pc_lt_of_fetched hi.2)).symm⟩

/-- Settles O22: the four ends of a step, each outcome being possible in some of them. -/
theorem outcomesHaveTheirCauses : Obligations.OutcomesHaveTheirCauses := by
  intro s t hrun h
  refine ⟨fun hhalt => ?normally, fun hhalt => ?illegal, fun hhalt => ?exhausted,
    fun hhalt => ?overflow, fun hhalt => ?outOfRange, fun hhalt => ?byZero, fun hhalt => ?underflow,
    fun hhalt => ?negative⟩ <;> have hend := step_end hrun h hhalt
  case normally =>
    cases hend with
    | byInstr hi _ hhlt => exact ⟨_, hi, hhlt⟩
  case illegal =>
    cases hend with
    | illegal hI hop => exact ⟨_, hI, hop⟩
    | byInstr _ _ hnone => exact hnone.elim
  case exhausted =>
    cases hend with
    | atEnd hpc => exact hpc
    | byInstr _ _ hnone => exact hnone.elim
  case overflow =>
    cases hend with
    | pastEnd hpc => exact hpc
    | byInstr _ _ hnone => exact hnone.elim
  case outOfRange =>
    cases hend with
    | byInstr hi _ hslot =>
      obtain ⟨v, hv, hnone⟩ := hslot
      exact ⟨_, v, hi, hv, hnone⟩
  case byZero =>
    cases hend with
    | byInstr hi hexec hdiv =>
      obtain ⟨ra, rb, rd, rfl⟩ := hdiv
      obtain ⟨j, hb, hzero⟩ := divisor_eq_zero_of_exec (s := s.setPc (s.pc + 1)) hrun hexec hhalt
      exact ⟨ra, rb, rd, j, hi, hb, hzero⟩
  case underflow =>
    cases hend with
    | byInstr hi _ hjump => exact ⟨_, hi, hjump⟩
  case negative =>
    cases hend with
    | byInstr hi hexec haloc =>
      obtain ⟨ra, b, c, rfl⟩ := haloc
      obtain ⟨j, ha, hneg⟩ := amount_neg_of_exec (s := s.setPc (s.pc + 1)) hrun hexec hhalt
      exact ⟨ra, b, c, j, hi, ha, hneg⟩

/-- The instruction before the pc is reported for every halt but the fetch's own (R215). -/
theorem haltingInstruction?_halt (hend : o ≠ .haltedOnExhaustion)
    (hover : o ≠ .haltedOnFault .programCounterOverflow) :
    haltingInstruction? (s.halt o) = s.program[s.pc - 1]? := by
  cases o with
  | haltedNormally | haltedOnIllegalOpcode => rfl
  | haltedOnExhaustion => exact absurd rfl hend
  | haltedOnFault kind =>
    cases kind with
    | programCounterOverflow => exact absurd rfl hover
    | registerOutOfRange | divisionByZero | programCounterUnderflow | negativeAllocation => rfl

/-- Settles O47: after an ILLEGAL or an instruction that halts, the pc is one past it. -/
theorem haltingInstructionIsBeforeThePc : Obligations.HaltingInstructionIsBeforeThePc := by
  intro s t o hrun h hhalt hend hover
  cases step_end hrun h hhalt with
  | pastEnd => exact absurd rfl hover
  | atEnd => exact absurd rfl hend
  | illegal hI => exact ⟨_, hI, (haltingInstruction?_halt hend hover).trans hI, hI⟩
  | byInstr hi => exact ⟨_, hi.2, (haltingInstruction?_halt hend hover).trans hi.2, hi.2⟩

/-! ## Steps that go on -/

/-- Settles O23: an instruction that is no jump leaves the pc as the fetch left it. -/
theorem nonJumpsAdvanceThePc : Obligations.NonJumpsAdvanceThePc := by
  intro s t i hi hjump h
  rw [step_of_fetches hi] at h
  rcases (exec_effect i h).pc_eq_or_jumped with hkept | ⟨hj, -⟩
  · exact hkept
  · rw [hjump] at hj
    cases hj

/-- The growth by a signed amount is refused exactly where it would pass a finite HEAP_MAX (R53). -/
theorem heapMayGrow_eq_false_iff {d : Int} (hd : 0 ≤ d) : s.heapMayGrow d.toNat = false ↔
    ∃ bound : Nat, s.capacity.heapMax = some bound ∧ (bound : Int) < s.heap.len + d := by
  rw [← Bool.not_eq_true, heapMayGrow_iff, not_forall]
  refine exists_congr fun bound => ?_
  rw [Classical.not_imp]
  exact and_congr_right fun _ => by omega

/-- Settles O37: ALOC hands the amount to the heap's growth, which is refused. -/
theorem alocPastHeapMaxIsRefused : Obligations.AlocPastHeapMaxIsRefused := by
  intro ra b c i s bound ha hamount hbound hpast
  rw [exec_aloc, execAloc_of_nonneg ha hamount]
  exact heapGrow_refused _ _ ((heapMayGrow_eq_false_iff hamount).2 ⟨bound, hbound, hpast⟩)

/-- Where ALOC gives no next state, its growth would pass a finite HEAP_MAX (R53). -/
theorem exec_aloc_next_or_refused (ra b c : Slot) (s : State) :
    (∃ t, exec (.aloc ra b c) s = .next t) ∨
      (exec (.aloc ra b c) s = .refused .heapPastMax ∧ ∃ (d : Fin 32) (bound : Nat), ra.names d ∧
        s.capacity.heapMax = some bound ∧ (bound : Int) < s.heap.len + (s.x d).toInt) := by
  rw [exec_aloc]
  by_cases hnone : ra.namesNone
  · exact .inl ⟨_, execAloc_of_namesNone hnone⟩
  obtain ⟨d, hd⟩ := exists_names_of_not_namesNone hnone
  rcases lt_or_ge (s.x d).toInt 0 with hneg | hamount
  · exact .inl ⟨_, execAloc_of_neg hd hneg⟩
  rw [execAloc_of_nonneg hd hamount]
  cases hmay : s.heapMayGrow (s.x d).toInt.toNat with
  | true => exact .inl ⟨_, (heapGrow_next_iff _ _ _).2 ⟨hmay, rfl⟩⟩
  | false =>
    obtain ⟨bound, hbound, hpast⟩ := (heapMayGrow_eq_false_iff hamount).1 hmay
    exact .inr ⟨heapGrow_refused _ _ hmay, d, bound, hd, hbound, hpast⟩

/-- A step gives a next state, or fetched an ALOC whose growth is refused (R116). -/
theorem step_next_or_refused (s : State) : (∃ t, step s = .next t) ∨
    (step s = .refused .heapPastMax ∧ ∃ (ra b c : Slot) (d : Fin 32) (bound : Nat),
      s.fetches (.aloc ra b c) ∧ ra.names d ∧ s.capacity.heapMax = some bound ∧
      (bound : Int) < s.heap.len + (s.x d).toInt) := by
  rcases step_cases s with ⟨_, -, hs⟩ | ⟨-, -, hs⟩ | ⟨-, -, hs⟩ | ⟨_, -, -, -, hs⟩ |
    ⟨I, i, hrun, hI, hi, hs⟩ <;> rw [hs]
  case inr.inr.inr.inr =>
    rcases exec_next_or_refused i (s.setPc (s.pc + 1)) with hnext | ⟨⟨ra, b, c, rfl⟩, -, -⟩
    · exact .inl hnext
    · refine (exec_aloc_next_or_refused ra b c _).imp_right fun ⟨href, d, bound, hpast⟩ => ?_
      exact ⟨href, ra, b, c, d, bound, fetches_of_instr? hrun hI hi, hpast⟩
  all_goals exact .inl ⟨_, rfl⟩

/-- Settles O19, by `step_next_or_refused`; with no HEAP_MAX there is none to pass. -/
theorem stepIsTotal : Obligations.StepIsTotal := by
  refine ⟨fun s hfree => ?_, step_next_or_refused⟩
  rcases step_next_or_refused s with hnext | ⟨-, _, _, _, _, bound, -, -, hbound, -⟩
  · exact hnext
  · rw [hfree] at hbound
    cases hbound

end Sys2Proof.Machine
end

section
/-!
PROOFS. The instructions that write a register (41_load.md rule R130; 42_arithmetic.md rules R140
to R148): what each writes, and that it writes nothing else.
-/

namespace Sys2Proof.Machine

variable {s : State} {ra rb rd : Slot} {i j k : Fin 32}

/-! ## Writing a register -/

theorem onlyRegWritten_setX (d : Fin 32) (v : Word) (s : State) :
    OnlyRegWritten d s (s.setX d v) where
  regs j hj := s.setX_x_ne d j v hj
  pc := s.setX_pc d v
  equal := s.setX_equal d v
  remainder := s.setX_remainder d v
  heap := ⟨rfl, fun _ => rfl⟩
  program := s.setX_program d v
  run := s.setX_run d v
  capacity := s.setX_capacity d v

theorem onlyRegAndRemainderWritten_setX_setRemainder (d : Fin 32) (v r : Word) (s : State) :
    OnlyRegAndRemainderWritten d s ((s.setX d v).setRemainder r) where
  regs j hj := s.setX_x_ne d j v hj
  pc := rfl
  equal := rfl
  heap := ⟨rfl, fun _ => rfl⟩
  program := rfl
  run := rfl
  capacity := rfl

/-- The word that is written for an exact result is its 32-bit value (R141). -/
theorem wraps_wrap32 (n : Int) : (wrap32 n).wraps n :=
  Int.emod_eq_emod_iff_emod_sub_eq_zero.1 (wrap32_congr n)

/-! ## LOAD -/

theorem exec_load (rd imm c : Slot) (s : State) : exec (.load rd imm c) s = execLoad rd imm s := rfl

theorem execLoad_of_names (imm : Slot) (h : rd.names k) :
    execLoad rd imm s = .next (s.setX k imm) :=
  withReg_of_index h

theorem execLoad_of_namesNone (imm : Slot) (h : rd.namesNone) :
    execLoad rd imm s = .next (s.raiseFault .registerOutOfRange) :=
  withReg_of_out h

/-- Opcode byte 1 selects LOAD, its immediate made of the last two bytes (R77). -/
theorem decodeGroup_one_instr? (b1 b2 b3 : Byte) :
    (decodeGroup 0x01 b1 b2 b3).instr? =
      some (.load (Slot.ofByte b1) (Slot.ofImm16 b2 b3) 0) := rfl

theorem ofByte_ofNat_names (r : Fin 32) : (Slot.ofByte (BitVec.ofNat 8 r.val)).names r := by
  have hr := r.isLt
  rw [Slot.names, Slot.ofByte_toInt, BitVec.toNat_ofNat]
  omega

/-- Settles O26: LOAD writes its immediate slot; the one-instruction program of the
rule holds it. -/
theorem loadWritesItsImmediate : Obligations.LoadWritesItsImmediate := by
  refine ⟨fun b1 b2 b3 => ?bytes, fun rd imm hrd => ?line, fun rd imm c d s hd => ?writes,
    fun rd imm c s hnone => ?faults, fun r => ?program⟩
  case bytes =>
    refine ⟨_, _, decodeGroup_one_instr? b1 b2 b3, Slot.ofByte_toInt b1, ?_⟩
    rw [Slot.ofImm16_toInt, mul_comm]
  case line =>
    have hm : IsMnemonic ['L', 'O', 'A', 'D'] .load := Opcode.isMnemonic_of_mnemonic? rfl
    exact decodeLine_lineOfTexts hm
      (.cons (isOperand_registerText rd) (.cons (isOperand_immediateText imm) .nil))
      (Nat.le_succ 2)
  case writes =>
    refine ⟨_, execLoad_of_names imm hd, ?_, onlyRegWritten_setX d imm s⟩
    rw [State.setX_x_self]
  case faults => exact ⟨_, execLoad_of_namesNone imm hnone, raised_raiseFault _ s⟩
  case program =>
    have hfetch : (State.boot [0x01, BitVec.ofNat 8 r.val, 0x04, 0xD2]).fetches
        (.load (Slot.ofByte (BitVec.ofNat 8 r.val)) (Slot.ofImm16 0x04 0xD2) 0) := ⟨rfl, rfl⟩
    have hstep := step_of_fetches hfetch
    rw [exec_load, execLoad_of_names _ (ofByte_ofNat_names r)] at hstep
    refine ⟨_, hstep, ?_, rfl⟩
    rw [State.setX_x_self]
    rfl

/-! ## ADD, SUB and MUL -/

/-- The exact result, wrapped, goes to the destination, whatever registers coincide (R141, R143). -/
theorem arith_writes_wrapped (op : Int → Int → Int) (s : State) (ha : ra.names i) (hb : rb.names j)
    (hd : rd.names k) : ∃ t, arith ra rb rd op s = .next t ∧ OnlyRegWritten k s t ∧
      (t.x k).wraps (op (s.x i).toInt (s.x j).toInt) := by
  refine ⟨_, withRegs3_of_index ha hb hd, onlyRegWritten_setX k _ s, ?_⟩
  rw [State.setX_x_self]
  exact wraps_wrap32 _

/-- Settles O27: the three operations are `arith`. -/
theorem addSubMulWriteWrappedResult : Obligations.AddSubMulWriteWrappedResult :=
  fun _ _ _ _ _ _ s ha hb hd => ⟨arith_writes_wrapped (fun a b => a + b) s ha hb hd,
    arith_writes_wrapped (fun a b => a - b) s ha hb hd,
    arith_writes_wrapped (fun a b => a * b) s ha hb hd⟩

/-! ## INC and DEC -/

/-- One register slot's value, wrapped, goes back to the register (R141). -/
theorem withReg_writes_wrapped (op : Int → Int) (s : State) (ha : ra.names i) :
    ∃ t, withReg ra s (fun i => .next (s.setX i (wrap32 (op (s.xInt i))))) = .next t ∧
      OnlyRegWritten i s t ∧ (t.x i).wraps (op (s.x i).toInt) := by
  refine ⟨_, withReg_of_index ha, onlyRegWritten_setX i _ s, ?_⟩
  rw [State.setX_x_self]
  exact wraps_wrap32 _

/-- Settles O28: INC and DEC differ in the operation alone. -/
theorem incDecWriteWrappedResult : Obligations.IncDecWriteWrappedResult :=
  fun _ _ _ _ s ha => ⟨withReg_writes_wrapped (fun a => a + 1) s ha,
    withReg_writes_wrapped (fun a => a - 1) s ha⟩

/-! ## DIV -/

/-- A divisor other than 0 gives quotient and remainder (R146). -/
theorem execDiv_of_ne_zero (ha : ra.names i) (hb : rb.names j) (hd : rd.names k)
    (hne : (s.x j).toInt ≠ 0) : execDiv ra rb rd s =
      .next ((s.setX k (wrap32 (truncDiv (s.x i).toInt (s.x j).toInt))).setRemainder
        (u32 (truncRem (s.x i).toInt (s.x j).toInt))) :=
  (withRegs3_of_index ha hb hd).trans (if_neg hne)

/-- The one quotient of two 32-bit values that needs more than 32 bits is that of -2^31 and -1: any
divisor but -1, 0 and 1 halves the dividend at least (R142). -/
theorem truncDiv_fits {a b : Int} (hlo : -2 ^ 31 ≤ a) (hhi : a < 2 ^ 31)
    (hpair : ¬(a = -2 ^ 31 ∧ b = -1)) : -2 ^ 31 ≤ truncDiv a b ∧ truncDiv a b < 2 ^ 31 := by
  rw [truncDiv]
  by_cases hsmall : b.natAbs ≤ 1
  case pos =>
    obtain rfl | rfl | rfl : b = -1 ∨ b = 0 ∨ b = 1 := by omega
    · rw [Int.tdiv_neg, Int.tdiv_one]; omega
    · rw [Int.tdiv_zero]; decide
    · rw [Int.tdiv_one]; exact ⟨hlo, hhi⟩
  case neg =>
    have hhalf : (a.tdiv b).natAbs ≤ a.natAbs / 2 := by
      rw [Int.natAbs_tdiv]
      exact Nat.div_le_div_left (by omega) (by decide)
    omega

/-- The remainder is smaller than the divisor, so it fits where the divisor does (R142). -/
theorem abs_truncRem_lt (a : Int) {b : Int} (hb : b ≠ 0) : |truncRem a b| < |b| := by
  rw [truncRem_eq_tmod, Int.abs_eq_natAbs, Int.abs_eq_natAbs, Int.natAbs_tmod, Int.ofNat_lt]
  exact Nat.mod_lt _ (Int.natAbs_pos.2 hb)

/-- A remainder other than 0 has the dividend's sign (R142). -/
theorem truncRem_pos_iff {a b : Int} (h : truncRem a b ≠ 0) : 0 < truncRem a b ↔ 0 < a := by
  rw [truncRem_eq_tmod] at h ⊢
  have hdvd : ¬ b ∣ a := mt Int.tmod_eq_zero_of_dvd h
  rw [← Int.sign_eq_one_iff_pos, Int.sign_tmod, if_neg hdvd, Int.sign_eq_one_iff_pos]

/-- The remainder register holds the remainder itself: it is smaller than a 32-bit
divisor (R146). -/
theorem u32_truncRem_toInt (a : Int) {b : Int} (hb : b ≠ 0) (hlo : -2 ^ 31 ≤ b) (hhi : b < 2 ^ 31) :
    (u32 (truncRem a b)).toInt = truncRem a b := by
  have hlt := abs_truncRem_lt a hb
  have hmax : |b| ≤ 2 ^ 31 := abs_le.2 ⟨hlo, hhi.le⟩
  obtain ⟨hge, hle⟩ := abs_lt.1 (hlt.trans_le hmax)
  exact wrap32_of_fits _ ⟨hge.le, hle⟩

/-- Settles O29: quotient and remainder of `truncDiv` and `truncRem` fit 32 bits but for -2^31 /
-1. -/
theorem divWritesQuotientAndRemainder : Obligations.DivWritesQuotientAndRemainder := by
  intro ra rb rd i j k s ha hb hd hne
  refine ⟨_, execDiv_of_ne_zero ha hb hd hne,
    onlyRegAndRemainderWritten_setX_setRemainder k _ _ s, fun hpair => ?wraps, fun hpair => ?fits⟩
  all_goals rw [State.setRemainder_x, State.setX_x_self, State.setRemainder_remainder]
  case wraps =>
    rw [hpair.1, hpair.2]
    decide
  case fits =>
    rw [wrap32_of_fits _ (truncDiv_fits (BitVec.le_toInt _) BitVec.toInt_lt hpair),
      u32_truncRem_toInt _ hne (BitVec.le_toInt _) BitVec.toInt_lt]
    exact ⟨(truncDiv_mul_add_truncRem _ _).symm, abs_truncRem_lt _ hne, truncRem_pos_iff⟩

end Sys2Proof.Machine
end

section
/-!
PROOFS. The jumps (43_jumps.md rules R160 to R165; 60_exceptions.md rule R207): a target of 0 or
more goes to the pc, and one below 0 faults.
-/

namespace Sys2Proof.Machine

variable {s : State} {ra : Slot} {i : Fin 32}

theorem onlyPcWritten_setPc (n : Nat) (s : State) : OnlyPcWritten s (s.setPc n) where
  regs := s.setPc_x n
  equal := s.setPc_equal n
  remainder := s.setPc_remainder n
  heap := ⟨rfl, fun _ => rfl⟩
  program := s.setPc_program n
  capacity := s.setPc_capacity n
  run := s.setPc_run n

/-- A jump to a target of 0 or more writes it to the pc, and nothing else (R165). -/
theorem jumpTo_writes_pc (s : State) {d : Int} (h : 0 ≤ d) :
    ∃ t, jumpTo d s = .next t ∧ (t.pc : Int) = d ∧ OnlyPcWritten s t :=
  ⟨_, jumpTo_of_nonneg d s h, Int.toNat_of_nonneg h, onlyPcWritten_setPc _ s⟩

/-- A jump to a target below 0 faults with nothing written (R165, R207). -/
theorem jumpTo_raises (s : State) {d : Int} (h : d < 0) :
    ∃ t, jumpTo d s = .next t ∧ Raised .programCounterUnderflow s t :=
  ⟨_, jumpTo_of_neg d s h, raised_raiseFault _ s⟩

/-! ## The target of each jump, its slot naming a register -/

theorem exec_jmp_of_names (b c : Slot) (s : State) (h : ra.names i) :
    exec (.jmp ra b c) s = jumpTo (s.x i).toInt s := withReg_of_index h

theorem exec_jmpf_of_names (b c : Slot) (s : State) (h : ra.names i) :
    exec (.jmpf ra b c) s = jumpTo (s.pc + (s.x i).toInt) s := withReg_of_index h

theorem exec_jmpb_of_names (b c : Slot) (s : State) (h : ra.names i) :
    exec (.jmpb ra b c) s = jumpTo (s.pc - (s.x i).toInt) s := withReg_of_index h

theorem exec_jeq_of_equal (b c : Slot) (h : ra.names i) (heq : s.equal = true) :
    exec (.jeq ra b c) s = jumpTo (s.x i).toInt s := (withReg_of_index h).trans (if_pos heq)

theorem exec_jeq_of_not_equal (b c : Slot) (h : ra.names i) (hne : s.equal = false) :
    exec (.jeq ra b c) s = .next s :=
  (withReg_of_index h).trans (if_neg (Bool.eq_false_iff.1 hne))

/-- Settles O31: every jump taken ends in `jumpTo` of its target. -/
theorem jumpsWriteThePc : Obligations.JumpsWriteThePc := by
  intro ra b c i s h
  refine ⟨fun htarget => ?_, fun htarget => ?_, fun htarget => ?_, fun heq htarget => ?_,
    exec_jeq_of_not_equal b c h⟩
  · rw [exec_jmp_of_names b c s h]; exact jumpTo_writes_pc s htarget
  · rw [exec_jmpf_of_names b c s h]; exact jumpTo_writes_pc s htarget
  · rw [exec_jmpb_of_names b c s h]; exact jumpTo_writes_pc s htarget
  · rw [exec_jeq_of_equal b c h heq]; exact jumpTo_writes_pc s htarget

/-- Settles O32: the same targets below 0; the program of the rule is run by the model. -/
theorem jumpBelowZeroFaults : Obligations.JumpBelowZeroFaults := by
  refine ⟨fun ra b c i s h => ?_, ⟨_, rfl, rfl, rfl⟩⟩
  refine ⟨fun htarget => ?_, fun htarget => ?_, fun htarget => ?_, fun heq htarget => ?_⟩
  · rw [exec_jmp_of_names b c s h]; exact jumpTo_raises s htarget
  · rw [exec_jmpf_of_names b c s h]; exact jumpTo_raises s htarget
  · rw [exec_jmpb_of_names b c s h]; exact jumpTo_raises s (Int.sub_neg_of_lt htarget)
  · rw [exec_jeq_of_equal b c h heq]; exact jumpTo_raises s htarget

end Sys2Proof.Machine
end

section
/-!
PROOFS. The six comparisons together (44_compare.md rules R180 to R187): each is `compareRegs` of
its own relation, and the relations are those of a linear order.
-/

namespace Sys2Proof.Machine

variable (u v : Word)

theorem flagEq_iff_toInt_eq : flagEq u v = true ↔ u.toInt = v.toInt := decide_eq_true_iff

theorem flagNeq_iff_toInt_ne : flagNeq u v = true ↔ u.toInt ≠ v.toInt := decide_eq_true_iff

theorem flagGt_iff_toInt_gt : flagGt u v = true ↔ u.toInt > v.toInt := decide_eq_true_iff

theorem flagLt_iff_toInt_lt : flagLt u v = true ↔ u.toInt < v.toInt := decide_eq_true_iff

theorem flagGtq_iff_toInt_ge : flagGtq u v = true ↔ u.toInt ≥ v.toInt := decide_eq_true_iff

theorem flagLtq_iff_toInt_le : flagLtq u v = true ↔ u.toInt ≤ v.toInt := decide_eq_true_iff

/-- Settles O33: each relation is the decision of the order on the signed values. -/
theorem comparisonsWriteTheFlag : Obligations.ComparisonsWriteTheFlag :=
  fun _ _ _ _ _ s ha hb => ⟨compareRegs_writes_flag flagEq_iff_toInt_eq s ha hb,
    compareRegs_writes_flag flagNeq_iff_toInt_ne s ha hb,
    compareRegs_writes_flag flagGt_iff_toInt_gt s ha hb,
    compareRegs_writes_flag flagLt_iff_toInt_lt s ha hb,
    compareRegs_writes_flag flagGtq_iff_toInt_ge s ha hb,
    compareRegs_writes_flag flagLtq_iff_toInt_le s ha hb⟩

/-! ## The table of outcomes (R187) -/

theorem flagNeq_eq_not_flagEq : flagNeq u v = !flagEq u v := decide_not

theorem flagGtq_eq_not_flagLt : flagGtq u v = !flagLt u v := by
  rw [flagGtq, flagLt, ← decide_not]
  exact decide_eq_decide.2 not_lt.symm

theorem flagLtq_eq_not_flagGt : flagLtq u v = !flagGt u v := by
  rw [flagLtq, flagGt, ← decide_not]
  exact decide_eq_decide.2 not_lt.symm

/-- Of two signed values exactly one of equal, greater and less holds. -/
theorem count_flagEq_flagGt_flagLt :
    [flagEq u v, flagGt u v, flagLt u v].count true = 1 := by
  rcases lt_trichotomy u.toInt v.toInt with h | h | h
  · simp [flagEq, flagGt, flagLt, h, h.ne, h.not_gt]
  · simp [flagEq, flagGt, flagLt, h]
  · simp [flagEq, flagGt, flagLt, h, h.ne', h.not_gt]

/-- Settles O35: the six comparisons of one pair of registers, by the table of their relations. -/
theorem comparisonsAreComplementary : Obligations.ComparisonsAreComplementary := by
  intro ra rb c i j s ha hb
  exact ⟨_, _, _, _, _, _, compareRegs_of_names flagEq s ha hb,
    compareRegs_of_names flagNeq s ha hb, compareRegs_of_names flagGt s ha hb, compareRegs_of_names
flagLt s ha hb,     compareRegs_of_names flagGtq s ha hb, compareRegs_of_names flagLtq s ha hb,
    flagNeq_eq_not_flagEq _ _, flagGtq_eq_not_flagLt _ _, flagLtq_eq_not_flagGt _ _,
    count_flagEq_flagGt_flagLt _ _⟩

/-- Settles O24: no meaning takes an unused slot as an argument. -/
theorem unusedSlotsAreIgnored : Obligations.UnusedSlotsAreIgnored :=
  fun _ _ _ _ _ _ _ =>
    ⟨rfl, rfl, rfl, rfl, rfl, rfl, rfl, rfl, rfl, rfl, rfl, rfl, rfl, rfl, rfl⟩

end Sys2Proof.Machine
end

section
/-!
PROOFS. A step runs the decoded instruction (40_engine_step.md rules R111 to R115), whether the
store is given, decoded from bytes, or has a table word placed in it.
-/

namespace Sys2Proof.Machine

variable {s : State} {i : Instr}

/-- The bytes of a well-formed instruction at the offset of the pc are what the pc
stands on (R79). -/
theorem fetches_of_bytes {before after : List Byte} (hrun : s.run = .running)
    (hwf : i.wellFormed = true) (hlen : before.length = 4 * s.pc)
    (hprogram : s.program = decodeBinary (before ++ encode i ++ after)) : s.fetches i := by
  have hdrop : (before ++ encode i ++ after).drop (4 * s.pc) = encode i ++ after := by
    rw [List.append_assoc, ← hlen, List.drop_left]
  refine ⟨hrun, ?_⟩
  calc s.program[s.pc]?
      = ((decodeBinary (before ++ encode i ++ after)).drop s.pc)[0]? := by
        rw [hprogram, List.getElem?_drop, Nat.add_zero]
    _ = (i.toInstruction :: decodeBinary after)[0]? := by
        rw [← decodeBinary_drop, hdrop, decodeBinary_encode_append hwf]

/-- What is placed at an index stands there, whatever the length of the store (log 4). -/
theorem placeInstruction_getElem? (program : List Instruction) (k : Nat) (I : Instruction) :
    (placeInstruction program k I)[k]? = some I := by
  have hlen : (program.take k ++
      List.replicate (k - program.length) Instruction.illegalZero).length = k := by
    rw [List.length_append, List.length_take, List.length_replicate]
    omega
  rw [placeInstruction, List.getElem?_append_right hlen.le, hlen, Nat.sub_self]
  rfl

theorem fetches_withFetchWord {nbits w : Nat} (h : decodeTableWord nbits w = some i) (s : State) :
    (s.withFetchWord nbits w).fetches i := by
  refine ⟨rfl, (placeInstruction_getElem? _ _ _).trans ?_⟩
  rw [Instruction.toInstruction_of_instr? h]

/-- Settles O14: in each of the three cases the engine fetches the instruction. -/
theorem stepRunsDecodedInstruction : Obligations.StepRunsDecodedInstruction :=
  ⟨fun _ _ h => step_of_fetches h,
    fun _ _ _ _ hrun hwf hlen hprogram => step_of_fetches (fetches_of_bytes hrun hwf hlen hprogram),
    fun s _ _ _ h => step_of_fetches (fetches_withFetchWord h s)⟩

end Sys2Proof.Machine
end

section
/-!
PROOFS. The heap primitives that no instruction calls (20_memory.md rules R54 and R55): in bounds a
read gives back what a write put there; out of bounds both stop.
-/

namespace Sys2Proof.Machine

variable {s : State} {addr n a : Nat} {bytes : List Byte}

theorem memRead_of_in (hn : 1 ≤ n) (h : addr + n ≤ s.heap.len) : memRead addr n s =
    .next ((List.range n).map fun k => Memory.lookup s.heap.cells (addr + k)) :=
  if_pos ⟨hn, h⟩

theorem memRead_of_out (h : s.heap.len < addr + n) : memRead addr n s = .fault .heapRangeAbsent :=
  if_neg fun hin => h.not_ge hin.2

theorem memWrite_of_out (h : s.heap.len < addr + bytes.length) :
    memWrite addr bytes s = .fault .heapRangeAbsent :=
  if_neg fun hin => h.not_ge hin.2

/-- An address inside the heap reads as what is listed for it (R51). -/
theorem Memory.byte?_of_lt {m : Memory} (h : a < m.len) :
    m.byte? a = some (Memory.lookup m.cells a) := if_pos h

/-- The bytes of a range that was just stored are those stored, in order. -/
theorem Memory.map_lookup_placeAll {cells : List Host.Cell} (h : Memory.rising cells = true)
    (addr : Nat) (bytes : List Byte) :
    ((List.range bytes.length).map fun k =>
      Memory.lookup (Memory.placeAll cells addr bytes) (addr + k)) = bytes := by
  apply List.ext_getElem
  · rw [List.length_map, List.length_range]
  · intro k _ hk
    rw [List.getElem_map, List.getElem_range, Memory.lookup_placeAll _ _ _ _ h,
      if_pos ⟨Nat.le_add_right _ _, Nat.add_lt_add_left hk _⟩, Nat.add_sub_cancel_left,
      List.getD_eq_getElem _ _ hk]

/-- An address outside the range that was stored reads as before. -/
theorem Memory.byte?_placeAll_of_out {m : Memory} (hwf : m.wf = true)
    (h : a < addr ∨ addr + bytes.length ≤ a) :
    Memory.byte? { m with cells := Memory.placeAll m.cells addr bytes } a = m.byte? a := by
  obtain ⟨hrising, -⟩ := (Memory.wf_iff m).1 hwf
  have hout : ¬(addr ≤ a ∧ a < addr + bytes.length) := by omega
  unfold Memory.byte?
  rw [Memory.lookup_placeAll _ _ _ _ hrising, if_neg hout]

/-- Settles O39: what the cells list after `placeAll` is what was stored in its range, and as before
elsewhere. -/
theorem heapReadAndWriteAgree : Obligations.HeapReadAndWriteAgree := by
  refine ⟨fun addr bytes s hwf hne hin => ?write, fun addr n s hn hin => ?read,
    fun addr n s hout => memRead_of_out hout, fun addr bytes s hout => memWrite_of_out hout⟩
  case write =>
    have hwrite := (memWrite_next_iff addr bytes s _).2 ⟨⟨hne, hin⟩, rfl⟩
    obtain ⟨hrising, -⟩ := (Memory.wf_iff s.heap).1 hwf
    refine ⟨_, hwrite, ?_, fun a ha => Memory.byte?_placeAll_of_out hwf ha,
      memWrite_wf addr bytes s _ hwf hwrite, rfl, rfl⟩
    exact (memRead_next_iff _ _ _ _).2
      ⟨⟨hne, hin⟩, (Memory.map_lookup_placeAll hrising addr bytes).symm⟩
  case read =>
    refine ⟨_, memRead_of_in hn hin, ?_⟩
    rw [List.map_map]
    refine List.map_congr_left fun k hk => (Memory.byte?_of_lt ?_).symm
    rw [List.mem_range] at hk
    omega

end Sys2Proof.Machine
end

section
/-!
PROOFS. The host's operations and reports (70_reset_and_hazards.md rules R230 to R241;
40_engine_step.md rule R120; 60_exceptions.md rule R203).
-/

namespace Sys2Proof.Machine

variable {s t : State} {r : StepReport} {n : Nat} {o : HaltOutcome}

/-! ## Reset and Append -/

/-- Settles O49: the state a reset gives is written out in `hostReset_next_iff`. -/
theorem resetClearsEverything : Obligations.ResetClearsEverything := by
  refine ⟨fun P s hfits => ?_, fun P s hpast => if_neg hpast.not_ge⟩
  exact ⟨_, hostReset_next_iff.2 ⟨hfits, rfl⟩, State.reset_x, rfl, rfl, rfl, rfl,
    fun a => Memory.byte?_of_len_le (Nat.zero_le a), rfl, rfl, rfl, rfl⟩

/-- Settles O50: the Instruction appended stands at the old length, where the next
fetch finds it. -/
theorem appendIsSeenByTheNextFetch : Obligations.AppendIsSeenByTheNextFetch := by
  refine ⟨fun I s hroom => ?_, fun I s hfull => if_neg hfull.not_gt⟩
  refine ⟨_, hostAppend_next_iff.2 ⟨hroom, rfl⟩, rfl, fun _ => rfl, rfl, rfl, rfl,
    ⟨rfl, fun _ => rfl⟩, rfl, rfl, fun hrun hend i hi => step_of_fetches ⟨hrun, ?_⟩⟩
  subst hi
  rw [hend]
  exact List.getElem?_concat_length

/-! ## Runs -/

theorem State.exists_run_of_halted (h : s.runState = .halted) : ∃ o, s.run = .halted o := by
  cases hrun : s.run with
  | running => rw [State.runState, hrun] at h; cases h
  | halted o => exact ⟨o, rfl⟩

theorem State.report_of_halted (h : s.run = .halted o) : s.report = .halted o := by
  rw [State.report, h]

theorem hostRun_of_halted (h : s.run = .halted o) (n : Nat) :
    hostRun n s = .next (s, .halted o) := by
  cases n with
  | zero => rw [hostRun, State.report_of_halted h]
  | succ n => simp only [hostRun, h]

/-- A run of a Running engine is a step and a run from where it ends (R120). -/
theorem hostRun_succ_next_iff (hrun : s.run = .running) : hostRun (n + 1) s = .next (t, r) ↔
    ∃ u, step s = .next u ∧ hostRun n u = .next (t, r) := by
  simp only [hostRun, hrun]
  cases step s <;> simp

/-- `k + 1` steps are one step and `k` more. -/
theorem coreRun_succ_next_iff {M : Host.Core} {k : Nat} {s t : M.State} :
    M.run (k + 1) s = .next t ↔ ∃ u, M.step s = .next u ∧ M.run k u = .next t := by
  rw [Host.Core.run]
  cases M.step s <;> simp

/-- A run of at most `n` steps from `s` that ends in `t` with the report `r` (R120): the steps it
takes, and that a larger bound takes no more of them once the engine is Halted. -/
structure RunsTo (n : Nat) (s t : State) (r : StepReport) : Prop where
  report : r = t.report
  steps : ∃ k, k ≤ n ∧ Host.Core.run Sys2Proof.core k s = .next t ∧ (t.run = .running → k = n) ∧
    ∀ j u, j < k → Host.Core.run Sys2Proof.core j s = .next u → State.runState u = .running
  stable : t.runState = .halted → ∀ m, hostRun (n + m) s = .next (t, r)

/-- The run of no steps: the bound is 0, or the engine is Halted already. -/
theorem runsTo_self (h : s.run = .running → n = 0) : RunsTo n s s s.report where
  report := rfl
  steps := ⟨0, Nat.zero_le n, rfl, fun hrun => (h hrun).symm,
    fun _ _ hj => absurd hj (Nat.not_lt_zero _)⟩
  stable hhalted m := by
    obtain ⟨o, ho⟩ := State.exists_run_of_halted hhalted
    rw [State.report_of_halted ho]
    exact hostRun_of_halted ho _

/-- A step in front of a run is a run of one step more. -/
theorem RunsTo.cons {u : State} (hrun : s.run = .running) (hstep : step s = .next u)
    (h : RunsTo n u t r) : RunsTo (n + 1) s t r where
  report := h.report
  steps := by
    obtain ⟨k, hk, hreach, hbound, hpath⟩ := h.steps
    refine ⟨k + 1, Nat.succ_le_succ hk, coreRun_succ_next_iff.2 ⟨u, hstep, hreach⟩,
      fun ht => congrArg (· + 1) (hbound ht), fun j v hj hv => ?_⟩
    cases j with
    | zero =>
      cases hv
      rw [State.runState, hrun]
    | succ j =>
      obtain ⟨u', hstep', hv'⟩ := coreRun_succ_next_iff.1 hv
      cases hstep.symm.trans hstep'
      exact hpath j v (Nat.lt_of_succ_lt_succ hj) hv'
  stable hhalted m := by
    rw [Nat.add_right_comm]
    exact (hostRun_succ_next_iff hrun).2 ⟨u, hstep, h.stable hhalted m⟩

theorem runsTo_of_hostRun (h : hostRun n s = .next (t, r)) : RunsTo n s t r := by
  induction n generalizing s with
  | zero => cases h; exact runsTo_self fun _ => rfl
  | succ n ih =>
    cases hrun : s.run with
    | halted o =>
      rw [hostRun_of_halted hrun, ← State.report_of_halted hrun] at h
      cases h
      refine runsTo_self fun hrunning => ?_
      rw [hrun] at hrunning
      cases hrunning
    | running =>
      obtain ⟨u, hstep, hu⟩ := (hostRun_succ_next_iff hrun).1 h
      exact (ih hu).cons hrun hstep

/-- Settles O51, by induction on the bound: a run is no steps, or a step and a run. -/
theorem runStepsUntilHalted : Obligations.RunStepsUntilHalted := by
  refine ⟨fun n s t r h => ?_, fun n s o h => hostRun_of_halted h n⟩
  have hruns := runsTo_of_hostRun h
  exact ⟨hruns.report, hruns.steps, hruns.stable⟩

/-! ## Status codes -/

/-- The table of R203: an outcome, its status code and its fault code. -/
inductive StatusRow : Option HaltOutcome → Nat → Nat → Prop
  | running : StatusRow none 0 0
  | normally : StatusRow (some .haltedNormally) 1 0
  | illegal : StatusRow (some .haltedOnIllegalOpcode) 2 0
  | exhausted : StatusRow (some .haltedOnExhaustion) 3 0
  | fault (kind : FaultKind) : StatusRow (some (.haltedOnFault kind)) 4 kind.code

/-- The codes of a state are those of a row of the table. -/
theorem statusRow (s : State) : StatusRow s.outcome (statusCode s) (faultCode s) := by
  unfold State.outcome statusCode faultCode
  cases s.run with
  | running => exact .running
  | halted o =>
    cases o with
    | haltedNormally => exact .normally
    | haltedOnIllegalOpcode => exact .illegal
    | haltedOnExhaustion => exact .exhausted
    | haltedOnFault kind => exact .fault kind

theorem FaultKind.code_ne_zero (kind : FaultKind) : kind.code ≠ 0 := by
  cases kind <;> exact nofun

theorem FaultKind.code_inj {k l : FaultKind} : k.code = l.code ↔ k = l := by
  cases k <;> cases l <;> simp [FaultKind.code]

variable {oc : Option HaltOutcome} {status fault : Nat}

theorem StatusRow.fault_eq_code_iff (h : StatusRow oc status fault) (kind : FaultKind) :
    fault = kind.code ↔ oc = some (.haltedOnFault kind) := by
  cases h with
  | fault k => simp [FaultKind.code_inj]
  | running | normally | illegal | exhausted => simp [kind.code_ne_zero.symm]

theorem StatusRow.fault_eq_zero_iff (h : StatusRow oc status fault) :
    fault = 0 ↔ ∀ kind, oc ≠ some (.haltedOnFault kind) := by
  cases h with
  | fault k => simp [k.code_ne_zero]
  | running | normally | illegal | exhausted => simp

/-- Each status code stands in the rows of one outcome, or of the faults (R203). -/
theorem StatusRow.status_iff (h : StatusRow oc status fault) :
    (status = 0 ↔ oc = none) ∧ (status = 1 ↔ oc = some .haltedNormally) ∧
      (status = 2 ↔ oc = some .haltedOnIllegalOpcode) ∧
      (status = 3 ↔ oc = some .haltedOnExhaustion) ∧
      (status = 4 ↔ ∃ kind, oc = some (.haltedOnFault kind)) := by
  cases h <;> simp

/-- Settles O52: what each column of the table says, for the row of the state. -/
theorem statusCodesTellOutcomesApart : Obligations.StatusCodesTellOutcomesApart := by
  have status := fun s => (statusRow s).status_iff
  have fault := fun kind s => (statusRow s).fault_eq_code_iff kind
  simp only [forall_and] at status
  obtain ⟨running, normally, illegal, exhausted, faulted⟩ := status
  exact ⟨running, normally, illegal, exhausted, faulted, fault .registerOutOfRange,
    fault .divisionByZero, fault .programCounterUnderflow, fault .programCounterOverflow,
    fault .negativeAllocation, fun s => (statusRow s).fault_eq_zero_iff⟩

end Sys2Proof.Machine
end

section
/-!
PROOFS. What is read of the flag and of the remainder register (10_state.md rules R29 and R31): an
update of the state that hides a field from an instruction leaves what the instruction does as it
was, up to that update.
-/

namespace Sys2Proof.Machine

variable {s t : State} {i : Instr} {f : State → State} {v : Bool} {w : Word}

/-! ## Steps that change the flag or the remainder -/

/-- A step leaves registers, flag, remainder, heap and program as they were, or runs the instruction
it fetched. -/
theorem step_sameData_or_effect (h : step s = .next t) :
    SameData s t ∨ ∃ i, s.fetches i ∧ Effect i (s.setPc (s.pc + 1)) t := by
  rcases step_cases s with ⟨_, -, hs⟩ | ⟨-, -, hs⟩ | ⟨-, -, hs⟩ | ⟨_, -, -, -, hs⟩ |
    ⟨I, i, hrun, hI, hi, hs⟩ <;> rw [hs] at h
  case inr.inr.inr.inr =>
    exact .inr ⟨i, fetches_of_instr? hrun hI hi, exec_effect i h⟩
  all_goals cases h
  case inl => exact .inl (onlyPcWritten_setPc s.pc s).toSameData
  case inr.inl => exact .inl (halted_halt _ s).toSameData
  case inr.inr.inl => exact .inl (halted_halt _ s).toSameData
  case inr.inr.inr.inl => exact .inl (sameData_setPc_halt _ _ s)

/-- An instruction that changes the flag is a comparison that completes (R29). -/
theorem Effect.compared_of_equal_ne (h : Effect i s t) (hne : t.equal ≠ s.equal) :
    i.isComparison = true ∧ t.run = s.run := by
  cases h
  case compared hi _ => exact ⟨hi, rfl⟩
  all_goals exact absurd rfl hne

/-- An instruction that changes the remainder register is a DIV that completes (R31). -/
theorem Effect.divided_of_remainder_ne (h : Effect i s t) (hne : t.remainder ≠ s.remainder) :
    i.isDiv ∧ t.run = s.run := by
  cases h
  case divided hi _ _ _ => exact ⟨hi, rfl⟩
  all_goals exact absurd rfl hne

theorem comparison_of_step_equal_ne (h : step s = .next t) (hne : t.equal ≠ s.equal) :
    t.run = .running ∧ ∃ i, s.fetches i ∧ i.isComparison = true := by
  rcases step_sameData_or_effect h with hsame | ⟨i, hi, he⟩
  · exact absurd hsame.equal hne
  · obtain ⟨hcomparison, hrun⟩ := he.compared_of_equal_ne hne
    exact ⟨hrun.trans hi.1, i, hi, hcomparison⟩

theorem div_of_step_remainder_ne (h : step s = .next t) (hne : t.remainder ≠ s.remainder) :
    t.run = .running ∧ ∃ i, s.fetches i ∧ i.isDiv := by
  rcases step_sameData_or_effect h with hsame | ⟨i, hi, he⟩
  · exact absurd hsame.remainder hne
  · obtain ⟨hdiv, hrun⟩ := he.divided_of_remainder_ne hne
    exact ⟨hrun.trans hi.1, i, hi, hdiv⟩

/-! ## Updates that hide a field

`f` overwrites one field. What every instruction but JEQ reads, the registers, the pc and the heap,
is the same after `f`; and a write after `f` is hidden by another `f`. -/

/-- The update `f` leaves what instructions read, JEQ's flag apart, and hides an earlier `f`. -/
structure Hides (f : State → State) : Prop where
  x : ∀ s j, (f s).x j = s.x j
  pc : ∀ s, (f s).pc = s.pc
  heap : ∀ s, (f s).heap = s.heap
  capacity : ∀ s, (f s).capacity = s.capacity
  self : ∀ s, f (f s) = f s
  halt : ∀ s o, f ((f s).halt o) = f (s.halt o)
  setX : ∀ s d v, f ((f s).setX d v) = f (s.setX d v)
  setPc : ∀ s n, f ((f s).setPc n) = f (s.setPc n)
  setEqual : ∀ s v, f ((f s).setEqual v) = f (s.setEqual v)
  setRemainder : ∀ s d v r,
    f (((f s).setX d v).setRemainder r) = f ((s.setX d v).setRemainder r)
  grow : ∀ s n, f { f s with heap := (f s).heap.grow n } = f { s with heap := s.heap.grow n }

theorem hides_setEqual (v : Bool) : Hides (State.setEqual · v) where
  x _ _ := rfl
  pc _ := rfl
  heap _ := rfl
  capacity _ := rfl
  self _ := rfl
  halt _ _ := rfl
  setX _ _ _ := rfl
  setPc _ _ := rfl
  setEqual _ _ := rfl
  setRemainder _ _ _ _ := rfl
  grow _ _ := rfl

theorem hides_setRemainder (w : Word) : Hides (State.setRemainder · w) where
  x _ _ := rfl
  pc _ := rfl
  heap _ := rfl
  capacity _ := rfl
  self _ := rfl
  halt _ _ := rfl
  setX _ _ _ := rfl
  setPc _ _ := rfl
  setEqual _ _ := rfl
  setRemainder _ _ _ _ := rfl
  grow _ _ := rfl

/-- Two outcomes are the same up to the field that `f` overwrites. -/
def SameUpTo (f : State → State) (out out' : Host.Outcome State Fault Refusal) : Prop :=
  mapNext f out = mapNext f out'

theorem sameUpTo_next {u : State} (h : f t = f u) : SameUpTo f (.next t) (.next u) :=
  congrArg Host.Outcome.next h

/-- An outcome the same up to `f` as a next state is a next state, the same up to `f`. -/
theorem SameUpTo.exists_next {out : Host.Outcome State Fault Refusal}
    (h : SameUpTo f out (.next t)) : ∃ u, out = .next u ∧ f u = f t := by
  cases out with
  | next u => exact ⟨u, rfl, Host.Outcome.next.inj h⟩
  | fault | refused => cases h

/-- Two choices by the same condition are the same up to `f` where their arms are. -/
theorem sameUpTo_ite {c : Prop} [Decidable c] {yes no yes' no' : Host.Outcome State Fault Refusal}
    (hyes : SameUpTo f yes yes') (hno : SameUpTo f no no') :
    SameUpTo f (if c then yes else no) (if c then yes' else no') := by
  split
  · exact hyes
  · exact hno

section
variable (hf : Hides f)
include hf

theorem Hides.xInt (s : State) (j : Fin 32) : (f s).xInt j = s.xInt j :=
  congrArg BitVec.toInt (hf.x s j)

theorem Hides.heapMayGrow (s : State) (n : Nat) : (f s).heapMayGrow n = s.heapMayGrow n := by
  rw [State.heapMayGrow, State.heapMayGrow, hf.capacity, hf.heap]

theorem Hides.sameUpTo_withReg {a : Slot} {body body' : Fin 32 → Host.Outcome State Fault Refusal}
    (hbody : ∀ d, SameUpTo f (body d) (body' d)) :
    SameUpTo f (withReg a (f s) body) (withReg a s body') := by
  unfold withReg
  cases regIndex? a with
  | some d => exact hbody d
  | none => exact sameUpTo_next (hf.halt s _)

theorem Hides.sameUpTo_jumpTo (d : Int) (s : State) :
    SameUpTo f (jumpTo d (f s)) (jumpTo d s) :=
  sameUpTo_ite (sameUpTo_next (hf.halt s _)) (sameUpTo_next (hf.setPc s _))

theorem Hides.sameUpTo_heapGrow (n : Nat) (s : State) :
    SameUpTo f (heapGrow n (f s)) (heapGrow n s) := by
  unfold heapGrow
  rw [hf.heapMayGrow]
  exact sameUpTo_ite (sameUpTo_next (hf.grow s n)) rfl

theorem Hides.sameUpTo_arith (ra rb rd : Slot) (op : Int → Int → Int) (s : State) :
    SameUpTo f (arith ra rb rd op (f s)) (arith ra rb rd op s) :=
  hf.sameUpTo_withReg fun i => hf.sameUpTo_withReg fun j => hf.sameUpTo_withReg fun k => by
    simp only [hf.xInt]
    exact sameUpTo_next (hf.setX s k _)

theorem Hides.sameUpTo_compareRegs (ra rb : Slot) (rel : Word → Word → Bool) (s : State) :
    SameUpTo f (compareRegs ra rb rel (f s)) (compareRegs ra rb rel s) :=
  hf.sameUpTo_withReg fun i => hf.sameUpTo_withReg fun j => by
    simp only [hf.x]
    exact sameUpTo_next (hf.setEqual s _)

theorem Hides.sameUpTo_execDiv (ra rb rd : Slot) (s : State) :
    SameUpTo f (execDiv ra rb rd (f s)) (execDiv ra rb rd s) :=
  hf.sameUpTo_withReg fun i => hf.sameUpTo_withReg fun j => hf.sameUpTo_withReg fun k => by
    simp only [hf.xInt]
    exact sameUpTo_ite (sameUpTo_next (hf.halt s _)) (sameUpTo_next (hf.setRemainder s k _ _))

theorem Hides.sameUpTo_execAloc (ra : Slot) (s : State) :
    SameUpTo f (execAloc ra (f s)) (execAloc ra s) :=
  hf.sameUpTo_withReg fun i => by
    rw [hf.xInt]
    exact sameUpTo_ite (sameUpTo_next (hf.halt s _)) (hf.sameUpTo_heapGrow _ s)

/-- JEQ alone reads the flag. -/
theorem Hides.sameUpTo_execJeq (hequal : ∀ s, (f s).equal = s.equal) (ra : Slot) (s : State) :
    SameUpTo f (execJeq ra (f s)) (execJeq ra s) :=
  hf.sameUpTo_withReg fun i => by
    rw [hf.xInt, hequal]
    exact sameUpTo_ite (hf.sameUpTo_jumpTo _ s) (sameUpTo_next (hf.self s))

/-- An instruction does the same after `f` as before it, up to `f`; JEQ where `f` keeps the flag. -/
theorem Hides.sameUpTo_exec (hequal : i.isJeq → ∀ s, (f s).equal = s.equal) (s : State) :
    SameUpTo f (exec i (f s)) (exec i s) := by
  cases i with
  | hlt a b c => exact sameUpTo_next (hf.halt s _)
  | load rd imm c => exact hf.sameUpTo_withReg fun d => sameUpTo_next (hf.setX s d imm)
  | add ra rb rd => exact hf.sameUpTo_arith ..
  | sub ra rb rd => exact hf.sameUpTo_arith ..
  | mul ra rb rd => exact hf.sameUpTo_arith ..
  | div ra rb rd => exact hf.sameUpTo_execDiv ..
  | jmp ra b c => exact hf.sameUpTo_withReg fun j => by rw [hf.xInt]; exact hf.sameUpTo_jumpTo _ s
  | jmpf ra b c =>
    exact hf.sameUpTo_withReg fun j => by rw [hf.xInt, hf.pc]; exact hf.sameUpTo_jumpTo _ s
  | jmpb ra b c =>
    exact hf.sameUpTo_withReg fun j => by rw [hf.xInt, hf.pc]; exact hf.sameUpTo_jumpTo _ s
  | eq ra rb c => exact hf.sameUpTo_compareRegs ..
  | neq ra rb c => exact hf.sameUpTo_compareRegs ..
  | gt ra rb c => exact hf.sameUpTo_compareRegs ..
  | lt ra rb c => exact hf.sameUpTo_compareRegs ..
  | gtq ra rb c => exact hf.sameUpTo_compareRegs ..
  | ltq ra rb c => exact hf.sameUpTo_compareRegs ..
  | jeq ra b c => exact hf.sameUpTo_execJeq (hequal ⟨ra, b, c, rfl⟩) ra s
  | aloc ra b c => exact hf.sameUpTo_execAloc ra s
  | inc ra b c =>
    exact hf.sameUpTo_withReg fun d => by rw [hf.xInt]; exact sameUpTo_next (hf.setX s d _)
  | dec ra b c =>
    exact hf.sameUpTo_withReg fun d => by rw [hf.xInt]; exact sameUpTo_next (hf.setX s d _)

end

/-! ## The flag -/

/-- A comparison with its slots in range overwrites the flag, whatever it held (R180). -/
theorem compareRegs_setEqual {ra rb : Slot} (ha : ¬ ra.namesNone) (hb : ¬ rb.namesNone)
    (rel : Word → Word → Bool) (v : Bool) (s : State) :
    compareRegs ra rb rel (s.setEqual v) = compareRegs ra rb rel s := by
  obtain ⟨i, hi⟩ := exists_names_of_not_namesNone ha
  obtain ⟨j, hj⟩ := exists_names_of_not_namesNone hb
  rw [compareRegs_of_names rel _ hi hj, compareRegs_of_names rel s hi hj]
  rfl

/-- What every comparison is: `compareRegs` of its two register slots (R180). -/
theorem exec_eq_compareRegs (h : i.isComparison = true) : ∃ ra rb rel,
    registerSlots i = [ra, rb] ∧ ∀ s, exec i s = compareRegs ra rb rel s := by
  cases i
  case eq | neq | gt | lt | gtq | ltq => exact ⟨_, _, _, rfl, fun _ => rfl⟩
  all_goals cases h

theorem exec_comparison_setEqual (h : i.isComparison = true)
    (hslots : ∀ a ∈ registerSlots i, ¬ a.namesNone) (v : Bool) (s : State) :
    exec i (s.setEqual v) = exec i s := by
  obtain ⟨ra, rb, rel, hregs, hexec⟩ := exec_eq_compareRegs h
  rw [hregs, List.forall_mem_cons, List.forall_mem_singleton] at hslots
  rw [hexec, hexec, compareRegs_setEqual hslots.1 hslots.2]

/-- Settles O40: what a step writes by its effect, and what it reads by
`Hides.sameUpTo_exec` for the flag. -/
theorem flagIsTheComparisonsAndJeqs : Obligations.FlagIsTheComparisonsAndJeqs := by
  refine ⟨fun s t h hne => comparison_of_step_equal_ne h hne, fun i s t v hjeq h => ?_⟩
  have hsame := (hides_setEqual v).sameUpTo_exec (fun hi => absurd hi hjeq) s
  rw [h] at hsame
  obtain ⟨u, hu, hut⟩ := hsame.exists_next
  refine ⟨u, hu, hut, fun hcomparison hslots => ?_⟩
  rw [exec_comparison_setEqual hcomparison hslots, h] at hu
  exact (Host.Outcome.next.inj hu).symm

/-! ## The remainder register -/

/-- A step does the same whatever the remainder register holds, up to that register (R31). -/
theorem step_setRemainder (w : Word) (s : State) :
    SameUpTo (State.setRemainder · w) (step (s.setRemainder w)) (step s) := by
  have hf := hides_setRemainder w
  rcases step_cases s with ⟨_, hrun, hs⟩ | ⟨hrun, hpc, hs⟩ | ⟨hrun, hpc, hs⟩ |
    ⟨I, hrun, hI, hi, hs⟩ | ⟨I, i, hrun, hI, hi, hs⟩ <;> rw [hs]
  case inl =>
    rw [step_of_halted (s := s.setRemainder w) hrun]
    exact sameUpTo_next (hf.self s)
  case inr.inl =>
    rw [step_of_pastEnd (s := s.setRemainder w) hrun hpc]
    exact sameUpTo_next (hf.halt s _)
  case inr.inr.inl =>
    rw [step_of_end (s := s.setRemainder w) hrun hpc]
    exact sameUpTo_next (hf.halt s _)
  case inr.inr.inr.inl =>
    rw [step_of_fetched (s := s.setRemainder w) hrun hI, runInstruction_of_none hi]
    exact sameUpTo_next (hf.halt (s.setPc (s.pc + 1)) _)
  case inr.inr.inr.inr =>
    rw [step_of_fetched (s := s.setRemainder w) hrun hI, runInstruction_of_some hi]
    exact hf.sameUpTo_exec (fun _ _ => rfl) (s.setPc (s.pc + 1))

/-- Settles O41: what a step writes by its effect, and that it does not read the remainder by
`step_setRemainder`. -/
theorem remainderIsWrittenByDivAndReadByNone :
    Obligations.RemainderIsWrittenByDivAndReadByNone := by
  refine ⟨fun s t h hne => div_of_step_remainder_ne h hne, fun s t v h => ?_⟩
  have hsame := step_setRemainder v s
  rw [h] at hsame
  exact hsame.exists_next

end Sys2Proof.Machine
end
